-- ==== Sys2Proof/Word.lean ====
section
/-! DEFINITION. The widths of the block's numbers (spec/00_scope.md R4, R6). -/

namespace Sys2Proof

/-- One byte of a buffer or of an encoding. -/
abbrev Byte := BitVec 8

/-- An address, `ADDR_BITS` = 64 bits wide, so that `+` is the spec's `+_64` (R4, R6; the width is the spec's decision D2). -/
abbrev Addr := BitVec 64

/-- The spec's `i32`: the numbers -2^31 to 2^31 - 1 (R6), held as their 32-bit two's-complement pattern and read by `toInt`. -/
abbrev I32 := BitVec 32

end Sys2Proof
end

