-- ==== Sys2Proof/Config.lean ====
section
/-! DEFINITION. The block's parameters (spec/00_scope.md R4) and the one family of values the spec leaves free. -/

namespace Sys2Proof.Config

/-- `MAX_BUF`: the largest buffer length a stream may be constructed over (R4; 92_eei_decisions.md D3). -/
def maxBuf : Nat := 2 ^ 64 - 1

/-- `LEA_RESOLVES`: whether `resolve` answers for Lea. Every rule of the spec is written for true (R4; D11). -/
def leaResolves : Bool := true

/-- Free value: what sink cell `cell` holds when the `encode` numbered `epoch` starts. The spec leaves the cells at or
above the length counter unspecified (10_state.md R23; 93_implementation_defined.md U11). Log entry 4. -/
opaque unspecifiedSinkCell : (epoch : Nat) → (cell : Nat) → Byte

end Sys2Proof.Config
end

