-- ==== Sys2Proof/Syntax.lean ====
section
/-! DEFINITION. The value domains of the block (spec/10_state.md section 1) and its twelve instructions
(spec/30_encoding.md R56). -/

namespace Sys2Proof

/-- The sixteen register names (10_state.md R10), in the order of their codes. They are names, not storage. -/
inductive Register where
  | rax | rcx | rdx | rbx | rsp | rbp | rsi | rdi
  | r8 | r9 | r10 | r11 | r12 | r13 | r14 | r15
  deriving DecidableEq, Repr

/-- An operand: a register or a signed 32-bit integer, which is an immediate or a displacement (10_state.md R12). -/
inductive Operand where
  | reg (r : Register)
  | int (v : I32)
  deriving DecidableEq, Repr

/-- The tagged instruction value in its loose, source-faithful type (10_state.md R13). It admits ill-formed values;
`Instruction.wf` is the check of R14. -/
inductive Instruction where
  | mov (dest src : Operand)
  | lea (dest src : Operand)
  | jmp (target : Operand)
  | callIndirect (target : Operand)
  | callDirect (target : Operand)
  | push (src : Operand)
  | pop (dest : Operand)
  | ret
  | syscall
  deriving DecidableEq, Repr

/-- An instruction with the address at which it begins (10_state.md R16; 90_conflicts.md C1). -/
structure PositionedInstruction where
  instruction : Instruction
  address : Addr
  deriving DecidableEq, Repr

/-- The answer of `resolve`: an address, or the normal result NotApplicable (45_stream_decoder.md R148, R149). -/
inductive Target where
  | address (a : Addr)
  | notApplicable
  deriving DecidableEq, Repr

/-- The two error kinds; they have names and no numbers (60_exceptions.md R160, R163). -/
inductive ErrorKind where
  | unrecognizedOpcode
  | invariantViolation
  deriving DecidableEq, Repr

/-- The instructions, one constructor for each row of spec/opcode_table.json, with the operands the row's bytes carry. -/
inductive Instr where
  /-- Row 1, `48 8B 05 d0 d1 d2 d3` (42_rip_relative.md R110). -/
  | mov (disp : I32)
  /-- Row 2, `48 8D 0D d0 d1 d2 d3` (R111). -/
  | lea (disp : I32)
  /-- Row 3, `FF 25 d0 d1 d2 d3` (R112). -/
  | jmp (disp : I32)
  /-- Row 4, `FF 15 d0 d1 d2 d3` (R113). -/
  | callIndirect (disp : I32)
  /-- Row 5, `E8 d0 d1 d2 d3` (R114). -/
  | callDirect (disp : I32)
  /-- Row 6, `6A ib`; the immediate is held at 32 bits (43_push_pop.md R120). -/
  | pushImm8 (imm : I32)
  /-- Row 7, `0F 05` (44_no_operand.md R130). -/
  | syscall
  /-- Row 8, `41 50` to `41 57` (43_push_pop.md R121). -/
  | pushRext (r : Register)
  /-- Row 9, `41 58` to `41 5F` (R122). -/
  | popRext (r : Register)
  /-- Row 10, `C3` (44_no_operand.md R131). -/
  | ret
  /-- Row 11, `50` to `57` (43_push_pop.md R123). -/
  | pushRbase (r : Register)
  /-- Row 12, `58` to `5F` (R124). -/
  | popRbase (r : Register)
  deriving DecidableEq, Repr

/-- The rows of the decode table (30_encoding.md R56), named as in spec/opcode_table.json (R63). -/
inductive Row where
  | mov | lea | jmp | callIndirect | callDirect | pushImm8
  | syscall | pushRext | popRext | ret | pushRbase | popRbase
  deriving DecidableEq, Repr

/-- The eight instruction formats (30_encoding.md R51). -/
inductive Format where
  | wOpMD32 | opMD32 | opD32 | opI8 | op2 | bOpr | op | opr
  deriving DecidableEq, Repr

end Sys2Proof
end

