-- ==== Sys2Proof/Machine/Operands.lean ====
section
/-! DEFINITION. The operand fields of the encodings and the conversions between bytes and numbers
(spec/00_scope.md R6, spec/30_encoding.md R53, R54, spec/41_codec_operations.md R102). -/

namespace Sys2Proof

/-- `lo8(v)`: the two's-complement low byte (R6). -/
def lo8 (v : I32) : Byte := v.setWidth 8

/-- `le32s(b0, b1, b2, b3)`: the number whose bit pattern is `b0 + 256*b1 + 65536*b2 + 16777216*b3` (R6). -/
def le32s (b0 b1 b2 b3 : Byte) : I32 :=
  BitVec.ofNat 32 (b0.toNat + 256 * b1.toNat + 65536 * b2.toNat + 16777216 * b3.toNat)

/-- `le32(v)`: the four bytes, least significant first; the shift is arithmetic (R95; 20_memory.md R32). -/
def le32 (v : I32) : List Byte :=
  [lo8 v, lo8 (v.sshiftRight 8), lo8 (v.sshiftRight 16), lo8 (v.sshiftRight 24)]

/-- `sext8to32(b)` (R6). -/
def sext8to32 (b : Byte) : I32 := b.signExtend 32

/-- `sext_64(d)`: a displacement at the width of an address (R6; 45_stream_decoder.md R148). -/
def sext64 (d : I32) : Addr := d.signExtend 64

/-- Whether the immediate byte can carry `v`: `-128 <= v <= 127` (10_state.md R14; decision D8). -/
def fitsImm8 (v : I32) : Bool := decide (-128 ≤ v.toInt ∧ v.toInt ≤ 127)

end Sys2Proof
end

