-- ==== Sys2Proof/Machine/Registers.lean ====
section
/-! DEFINITION. The Register Model (spec/40_register_model.md): the register codes and the six operations on them.
All are pure and total on the types they take. -/

namespace Sys2Proof

/-- `BASE_TABLE` (R80). -/
def baseTable : List Register := [.rax, .rcx, .rdx, .rbx, .rsp, .rbp, .rsi, .rdi]

/-- `EXT_TABLE` (R80). -/
def extTable : List Register := [.r8, .r9, .r10, .r11, .r12, .r13, .r14, .r15]

/-- `code(r)`: the unique 4-bit machine code (10_state.md R10). -/
def code : Register → BitVec 4
  | .rax => 0 | .rcx => 1 | .rdx => 2 | .rbx => 3 | .rsp => 4 | .rbp => 5 | .rsi => 6 | .rdi => 7
  | .r8 => 8 | .r9 => 9 | .r10 => 10 | .r11 => 11 | .r12 => 12 | .r13 => 13 | .r14 => 14 | .r15 => 15

/-- Entry `bits` of one of the two tables; both have eight entries, so the lookup never misses. -/
def tableEntry (table : List Register) (bits : BitVec 3) (h : table.length = 8) : Register :=
  table[bits.toNat]'(by rw [h]; exact bits.isLt)

/-- `reg_from_base_bits(bits, ext)` (R82). Its domain 0 to 7 is the type of `bits` (decision D7). -/
def regFromBaseBits (bits : BitVec 3) (ext : Bool) : Register :=
  if ext then tableEntry extTable bits rfl else tableEntry baseTable bits rfl

/-- `reg_of_code(c)`: `BASE_TABLE[c]` for c below 8, else `EXT_TABLE[c - 8]` (R81). -/
def regOfCode (c : BitVec 4) : Register :=
  if c < 8 then tableEntry baseTable (c.setWidth 3) rfl else tableEntry extTable ((c - 8).setWidth 3) rfl

/-- `is_extended(r)`: true for r8 to r15 (R84). -/
def isExtended (r : Register) : Bool := decide (8 ≤ code r)

/-- `base_bits(r) = code(r) & 0b0111` (R85). -/
def baseBits (r : Register) : BitVec 3 := (code r &&& 0b0111#4).setWidth 3

/-- `full_bits(r)`: `base_bits` with the extension bit `0b1000` OR'd in when extended (R86). -/
def fullBits (r : Register) : BitVec 4 :=
  (baseBits r).setWidth 4 ||| (if isExtended r then 0b1000#4 else 0#4)

/-- `rb & 0b0111`: the register field of a raw byte (R83; 30_encoding.md R55). -/
def registerField (b : Byte) : BitVec 3 := (b &&& 0b0111#8).setWidth 3

/-- `try_parse(byte, ext)` under the contract of R83 (decision D6); never absent. -/
def tryParse (byte : Byte) (ext : Bool) : Option Register :=
  some (regFromBaseBits (registerField byte) ext)

end Sys2Proof
end

