-- ==== Sys2Proof/WellFormed.lean ====
section
/-! DEFINITION. Well-formedness of the tagged values (spec/10_state.md R14) and of the table's instructions. -/

namespace Sys2Proof

/-- `WF(i)`: exactly the shapes of 10_state.md R14. -/
def Instruction.wf : Instruction → Bool
  | .mov (.reg r) (.int _) => r == .rax
  | .lea (.reg r) (.int _) => r == .rcx
  | .jmp (.int _) | .callIndirect (.int _) | .callDirect (.int _) => true
  | .push (.int v) => fitsImm8 v
  | .push (.reg _) | .pop (.reg _) | .ret | .syscall => true
  | .mov (.int _) _ | .mov (.reg _) (.reg _) | .lea (.int _) _ | .lea (.reg _) (.reg _)
  | .jmp (.reg _) | .callIndirect (.reg _) | .callDirect (.reg _) | .pop (.int _) => false

/-- The operands of an instruction are ones its row's bytes can carry: an immediate of eight bits in row 6, an extended
register in rows 8 and 9, a base register in rows 11 and 12 (30_encoding.md R53 to R56). -/
def Instr.wf : Instr → Bool
  | .mov _ | .lea _ | .jmp _ | .callIndirect _ | .callDirect _ | .syscall | .ret => true
  | .pushImm8 imm => fitsImm8 imm
  | .pushRext r | .popRext r => isExtended r
  | .pushRbase r | .popRbase r => !isExtended r

end Sys2Proof
end

