-- ==== Sys2Proof/Decode.lean ====
section
/-! DEFINITION. The decode table (spec/30_encoding.md R51, R56, R63), the decoder (spec/41_codec_operations.md R90) and,
after it, the encoder over the same rows (R62, R95). -/

namespace Sys2Proof

/-- `REX_W`, the width-extension prefix byte (30_encoding.md R52). -/
def rexW : Byte := 0x48#8

/-- `REX_B`, the register-extension prefix byte (30_encoding.md R52). -/
def rexB : Byte := 0x41#8

/-- What one byte of a pattern asks of the input: a literal, a range, or nothing (a payload byte) (R56). -/
inductive ByteTest where
  | literal (b : Byte)
  | range (lo hi : Byte)
  | payload
  deriving DecidableEq, Repr

/-- Whether a byte passes the test. -/
def ByteTest.accepts : ByteTest → Byte → Bool
  | .literal b, x => x == b
  | .range lo hi, x => decide (lo ≤ x) && decide (x ≤ hi)
  | .payload, _ => true

/-- A pattern matches an input that is at least as long and whose bytes pass the pattern's tests (R56). Bytes after the
pattern are ignored (R93). -/
def matchesPattern : List ByteTest → List Byte → Bool
  | [], _ => true
  | _ :: _, [] => false
  | t :: ts, b :: bs => t.accepts b && matchesPattern ts bs

/-- The rows in priority order (R56). -/
def rows : List Row :=
  [.mov, .lea, .jmp, .callIndirect, .callDirect, .pushImm8, .syscall, .pushRext, .popRext, .ret, .pushRbase, .popRbase]

/-- Four payload bytes: the displacement field (R53). -/
def disp32Tests : List ByteTest := [.payload, .payload, .payload, .payload]

/-- The byte pattern of each row (R56). -/
def Row.pattern : Row → List ByteTest
  | .mov => [.literal rexW, .literal 0x8B#8, .literal 0x05#8] ++ disp32Tests
  | .lea => [.literal rexW, .literal 0x8D#8, .literal 0x0D#8] ++ disp32Tests
  | .jmp => [.literal 0xFF#8, .literal 0x25#8] ++ disp32Tests
  | .callIndirect => [.literal 0xFF#8, .literal 0x15#8] ++ disp32Tests
  | .callDirect => [.literal 0xE8#8] ++ disp32Tests
  | .pushImm8 => [.literal 0x6A#8, .payload]
  | .syscall => [.literal 0x0F#8, .literal 0x05#8]
  | .pushRext => [.literal rexB, .range 0x50#8 0x57#8]
  | .popRext => [.literal rexB, .range 0x58#8 0x5F#8]
  | .ret => [.literal 0xC3#8]
  | .pushRbase => [.range 0x50#8 0x57#8]
  | .popRbase => [.range 0x58#8 0x5F#8]

/-- The length column of R56: the number of bytes of the row's pattern. -/
def Row.length (r : Row) : Nat := r.pattern.length

/-- Whether the row's pattern matches the front of `w`. -/
def Row.matches (r : Row) (w : List Byte) : Bool := matchesPattern r.pattern w

/-- The format column of R56. -/
def Row.format : Row → Format
  | .mov | .lea => .wOpMD32
  | .jmp | .callIndirect => .opMD32
  | .callDirect => .opD32
  | .pushImm8 => .opI8
  | .syscall => .op2
  | .pushRext | .popRext => .bOpr
  | .ret => .op
  | .pushRbase | .popRbase => .opr

/-- The length column of R51. -/
def Format.length : Format → Nat
  | .wOpMD32 => 7
  | .opMD32 => 6
  | .opD32 => 5
  | .opI8 | .op2 | .bOpr => 2
  | .op | .opr => 1

/-- The byte index of `d0`, in the formats that have a displacement (R51). -/
def Format.dispOffset : Format → Option Nat
  | .wOpMD32 => some 3
  | .opMD32 => some 2
  | .opD32 => some 1
  | .opI8 | .op2 | .bOpr | .op | .opr => none

/-- `match` of spec/opcode_table.json, in stream order (R63). -/
def Row.matchBytes : Row → List Byte
  | .mov => [0x48#8, 0x8B#8, 0x05#8, 0#8, 0#8, 0#8, 0#8]
  | .lea => [0x48#8, 0x8D#8, 0x0D#8, 0#8, 0#8, 0#8, 0#8]
  | .jmp => [0xFF#8, 0x25#8, 0#8, 0#8, 0#8, 0#8]
  | .callIndirect => [0xFF#8, 0x15#8, 0#8, 0#8, 0#8, 0#8]
  | .callDirect => [0xE8#8, 0#8, 0#8, 0#8, 0#8]
  | .pushImm8 => [0x6A#8, 0#8]
  | .syscall => [0x0F#8, 0x05#8]
  | .pushRext => [0x41#8, 0x50#8]
  | .popRext => [0x41#8, 0x58#8]
  | .ret => [0xC3#8]
  | .pushRbase => [0x50#8]
  | .popRbase => [0x58#8]

/-- `mask` of spec/opcode_table.json, in stream order (R63). -/
def Row.maskBytes : Row → List Byte
  | .mov | .lea => [0xFF#8, 0xFF#8, 0xFF#8, 0#8, 0#8, 0#8, 0#8]
  | .jmp | .callIndirect => [0xFF#8, 0xFF#8, 0#8, 0#8, 0#8, 0#8]
  | .callDirect => [0xFF#8, 0#8, 0#8, 0#8, 0#8]
  | .pushImm8 => [0xFF#8, 0#8]
  | .syscall => [0xFF#8, 0xFF#8]
  | .pushRext | .popRext => [0xFF#8, 0xF8#8]
  | .ret => [0xFF#8]
  | .pushRbase | .popRbase => [0xF8#8]

/-- The table's own test of a row: `(w[k] & mask[k]) = match[k]` for every `k < length` (R63). -/
def Row.matchesMask (r : Row) (w : List Byte) : Bool :=
  decide (r.length ≤ w.length) &&
    (((w.take r.length).zip r.maskBytes).map fun p => p.1 &&& p.2) == r.matchBytes

/-- `w[k]`, used only at an index the matched pattern covers. -/
def byteAt (w : List Byte) (k : Nat) : Byte := w.getD k 0#8

/-- The displacement whose first byte is `w[k]`: `le32s(w[k], w[k+1], w[k+2], w[k+3])` (R53; 20_memory.md R32). -/
def dispAt (w : List Byte) (k : Nat) : I32 :=
  le32s (byteAt w k) (byteAt w (k + 1)) (byteAt w (k + 2)) (byteAt w (k + 3))

/-- The register of the opcode-plus-register byte `w[k]` (R55). -/
def registerAt (w : List Byte) (k : Nat) (ext : Bool) : Register :=
  regFromBaseBits (registerField (byteAt w k)) ext

/-- The instruction a matched row yields, its operands read from the bytes (R56, R90). -/
def Row.read (w : List Byte) : Row → Instr
  | .mov => .mov (dispAt w 3)
  | .lea => .lea (dispAt w 3)
  | .jmp => .jmp (dispAt w 2)
  | .callIndirect => .callIndirect (dispAt w 2)
  | .callDirect => .callDirect (dispAt w 1)
  | .pushImm8 => .pushImm8 (sext8to32 (byteAt w 1))
  | .syscall => .syscall
  | .pushRext => .pushRext (registerAt w 1 true)
  | .popRext => .popRext (registerAt w 1 true)
  | .ret => .ret
  | .pushRbase => .pushRbase (registerAt w 0 false)
  | .popRbase => .popRbase (registerAt w 0 false)

/-- The decoder: the rows are tried in priority order against the front of `w`, the first match wins, and the result is the
instruction with the number of bytes consumed; `none` is the spec's `absent` (R90 to R93). -/
def decode (w : List Byte) : Option (Instr × Nat) :=
  (rows.find? fun r => r.matches w).map fun r => (r.read w, r.length)

/-- After a first byte `0F` (R58). -/
def after0F : List Byte → Option (Instr × Nat)
  | b1 :: _ => if b1 = 0x05#8 then some (.syscall, 2) else none
  | [] => none

/-- After a first byte `41` (R58). -/
def after41 : List Byte → Option (Instr × Nat)
  | rb :: _ =>
    if 0x50#8 ≤ rb ∧ rb ≤ 0x57#8 then some (.pushRext (regFromBaseBits (registerField rb) true), 2)
    else if 0x58#8 ≤ rb ∧ rb ≤ 0x5F#8 then some (.popRext (regFromBaseBits (registerField rb) true), 2)
    else none
  | [] => none

/-- After a first byte `48` (R58). -/
def after48 : List Byte → Option (Instr × Nat)
  | b1 :: b2 :: d0 :: d1 :: d2 :: d3 :: _ =>
    if b1 = 0x8B#8 ∧ b2 = 0x05#8 then some (.mov (le32s d0 d1 d2 d3), 7)
    else if b1 = 0x8D#8 ∧ b2 = 0x0D#8 then some (.lea (le32s d0 d1 d2 d3), 7)
    else none
  | _ => none

/-- After a first byte `6A` (R58). -/
def after6A : List Byte → Option (Instr × Nat)
  | ib :: _ => some (.pushImm8 (sext8to32 ib), 2)
  | [] => none

/-- After a first byte `E8` (R58). -/
def afterE8 : List Byte → Option (Instr × Nat)
  | d0 :: d1 :: d2 :: d3 :: _ => some (.callDirect (le32s d0 d1 d2 d3), 5)
  | _ => none

/-- After a first byte `FF` (R58). -/
def afterFF : List Byte → Option (Instr × Nat)
  | b1 :: d0 :: d1 :: d2 :: d3 :: _ =>
    if b1 = 0x25#8 then some (.jmp (le32s d0 d1 d2 d3), 6)
    else if b1 = 0x15#8 then some (.callIndirect (le32s d0 d1 d2 d3), 6)
    else none
  | _ => none

/-- R58's map: the first byte decides what is looked at after it. It is a second description of `decode`. -/
def decodeByFirstByte : List Byte → Option (Instr × Nat)
  | [] => none
  | b0 :: t =>
    if b0 = 0x0F#8 then after0F t
    else if b0 = 0x41#8 then after41 t
    else if b0 = 0x48#8 then after48 t
    else if 0x50#8 ≤ b0 ∧ b0 ≤ 0x57#8 then some (.pushRbase (regFromBaseBits (registerField b0) false), 1)
    else if 0x58#8 ≤ b0 ∧ b0 ≤ 0x5F#8 then some (.popRbase (regFromBaseBits (registerField b0) false), 1)
    else if b0 = 0x6A#8 then after6A t
    else if b0 = 0xC3#8 then some (.ret, 1)
    else if b0 = 0xE8#8 then afterE8 t
    else if b0 = 0xFF#8 then afterFF t
    else none

/-- The opcode-plus-register byte: `0x50 + base_bits(r)` for Push, `0x58 + base_bits(r)` for Pop (R55). -/
def opcodePlusReg (opcode : Byte) (r : Register) : Byte := opcode + (baseBits r).setWidth 8

/-- The encoder: the one canonical byte pattern of each instruction, in stream order (R62, R95). -/
def encode : Instr → List Byte
  | .mov d => [rexW, 0x8B#8, 0x05#8] ++ le32 d
  | .lea d => [rexW, 0x8D#8, 0x0D#8] ++ le32 d
  | .jmp d => [0xFF#8, 0x25#8] ++ le32 d
  | .callIndirect d => [0xFF#8, 0x15#8] ++ le32 d
  | .callDirect d => [0xE8#8] ++ le32 d
  | .pushImm8 v => [0x6A#8, lo8 v]
  | .syscall => [0x0F#8, 0x05#8]
  | .pushRext r => [rexB, opcodePlusReg 0x50#8 r]
  | .popRext r => [rexB, opcodePlusReg 0x58#8 r]
  | .ret => [0xC3#8]
  | .pushRbase r => [opcodePlusReg 0x50#8 r]
  | .popRbase r => [opcodePlusReg 0x58#8 r]

/-- The row an instruction belongs to. -/
def Instr.row : Instr → Row
  | .mov _ => .mov
  | .lea _ => .lea
  | .jmp _ => .jmp
  | .callIndirect _ => .callIndirect
  | .callDirect _ => .callDirect
  | .pushImm8 _ => .pushImm8
  | .syscall => .syscall
  | .pushRext _ => .pushRext
  | .popRext _ => .popRext
  | .ret => .ret
  | .pushRbase _ => .pushRbase
  | .popRbase _ => .popRbase

/-- `MAX_MATCH`: the longest pattern, in bytes (00_scope.md R4). -/
def maxMatch : Nat := 7

/-- The bytes of an opcode-table word: byte `k` is bits `8k+7` to `8k` of `w`, and every bit at or above `nbits` is 0, up to
the longest instruction. -/
def tableBytes (nbits w : Nat) : List Byte :=
  (List.range maxMatch).map fun k => BitVec.ofNat 8 ((w % 2 ^ nbits) / 2 ^ (8 * k))

/-- The instruction the decoder reads from an opcode-table word. -/
def decodeTableWord (nbits w : Nat) : Option Instr := (decode (tableBytes nbits w)).map Prod.fst

end Sys2Proof
end

