-- ==== Sys2Proof/Machine/Codec.lean ====
section
/-! DEFINITION. The Instruction Codec over the tagged values (spec/41_codec_operations.md) and relative-address resolution
(spec/45_stream_decoder.md R148). All are pure functions. -/

namespace Sys2Proof

/-- The tagged value a row's instruction stands for: the "instruction produced" column of 30_encoding.md R56. -/
def Instr.value : Instr → Instruction
  | .mov d => .mov (.reg .rax) (.int d)
  | .lea d => .lea (.reg .rcx) (.int d)
  | .jmp d => .jmp (.int d)
  | .callIndirect d => .callIndirect (.int d)
  | .callDirect d => .callDirect (.int d)
  | .pushImm8 v => .push (.int v)
  | .syscall => .syscall
  | .pushRext r => .push (.reg r)
  | .popRext r => .pop (.reg r)
  | .ret => .ret
  | .pushRbase r => .push (.reg r)
  | .popRbase r => .pop (.reg r)

namespace Codec

/-- The row encode uses for a tagged value (30_encoding.md R62); `none` for the ill-formed shapes of
41_codec_operations.md R96. -/
def canonical : Instruction → Option Instr
  | .mov (.reg r) (.int d) => if r = .rax then some (.mov d) else none
  | .lea (.reg r) (.int d) => if r = .rcx then some (.lea d) else none
  | .jmp (.int d) => some (.jmp d)
  | .callIndirect (.int d) => some (.callIndirect d)
  | .callDirect (.int d) => some (.callDirect d)
  | .push (.int v) => if fitsImm8 v then some (.pushImm8 v) else none
  | .syscall => some .syscall
  | .push (.reg r) => some (if isExtended r then .pushRext r else .pushRbase r)
  | .pop (.reg r) => some (if isExtended r then .popRext r else .popRbase r)
  | .ret => some .ret
  | .mov (.int _) _ | .mov (.reg _) (.reg _) | .lea (.int _) _ | .lea (.reg _) (.reg _)
  | .jmp (.reg _) | .callIndirect (.reg _) | .callDirect (.reg _) | .pop (.int _) => none

/-- `decode(w)`: the tagged value and the consumed length, or UnrecognizedOpcode, the spec's `absent` (R90 to R92). -/
def decode (w : List Byte) : Except ErrorKind (Instruction × Nat) :=
  match Sys2Proof.decode w with
  | some (i, n) => .ok (i.value, n)
  | none => .error .unrecognizedOpcode

/-- `encode(i)`: the canonical bytes of a well-formed value, InvariantViolation for any other (R95, R96). -/
def encode (i : Instruction) : Except ErrorKind (List Byte) :=
  match canonical i with
  | some r => .ok (Sys2Proof.encode r)
  | none => .error .invariantViolation

/-- `length(i)`: the instruction-length compute table (R97), by tag where the tag fixes it, and InvariantViolation for
`Pop(Int(_))` (R98; decision D9). -/
def length : Instruction → Except ErrorKind Nat
  | .callDirect _ => .ok 5
  | .callIndirect _ => .ok 6
  | .lea _ _ => .ok 7
  | .mov _ _ => .ok 7
  | .jmp _ => .ok 6
  | .push (.int _) => .ok 2
  | .push (.reg r) => .ok (if isExtended r then 2 else 1)
  | .pop (.reg r) => .ok (if isExtended r then 2 else 1)
  | .pop (.int _) => .error .invariantViolation
  | .ret => .ok 1
  | .syscall => .ok 2

/-- `address +_64 length +_64 sext_64(d)`: relative to the following instruction (45_stream_decoder.md R148). -/
def relativeTo (address : Addr) (length : Nat) (d : I32) : Addr :=
  address + BitVec.ofNat 64 length + sext64 d

/-- `resolve` with the switch `LEA_RESOLVES` as an argument (45_stream_decoder.md R148, R149; decisions D11, D12, D25). -/
def resolveWith (leaResolves : Bool) (p : PositionedInstruction) : Target :=
  match p.instruction with
  | .mov _ (.int d) => .address (relativeTo p.address 7 d)
  | .lea _ (.int d) => if leaResolves then .address (relativeTo p.address 7 d) else .notApplicable
  | .jmp (.int d) => .address (relativeTo p.address 6 d)
  | .callIndirect (.int d) => .address (relativeTo p.address 6 d)
  | .callDirect (.int d) => .address (relativeTo p.address 5 d)
  | .mov _ (.reg _) | .lea _ (.reg _) | .jmp (.reg _) | .callIndirect (.reg _) | .callDirect (.reg _)
  | .push _ | .pop _ | .ret | .syscall => .notApplicable

/-- `resolve(p)` (45_stream_decoder.md R148). -/
def resolve (p : PositionedInstruction) : Target := resolveWith Config.leaResolves p

end Codec

end Sys2Proof
end

