-- ==== Sys2Proof/Machine/State.lean ====
section
/-! DEFINITION. The machine's state (spec/10_state.md sections 3 and 4), the results its operations hand out
(spec/00_scope.md R7), the reasons an operation stops, and the state after reset. -/

namespace Sys2Proof.Machine

/-- The buffer: its bytes with their indices (spec/20_memory.md R30). Canonical form: the indices are 0, 1, ..., N-1 in
this order (`Memory.wf`). An index that is not listed holds no byte. -/
abbrev Memory := List Host.Cell

/-- What an index that is not listed reads as: no byte, since the buffer ends there (20_memory.md R35). -/
def Memory.unlisted : Option Byte := none

/-- The canonical form: strictly rising indices with no gap from 0 on, so that equal buffers are equal data. -/
def Memory.wf (m : Memory) : Bool := m.map Prod.fst == List.range m.length

/-- The two states of the stream decoder (45_stream_decoder.md R140). -/
inductive StreamStatus where
  | hasNext
  | exhausted
  deriving DecidableEq, Repr

/-- The output sink: 15 byte cells and a length counter; only the cells below the counter are meaningful
(10_state.md R22). -/
structure Sink where
  cells : Vector Byte 15
  count : Nat
  deriving DecidableEq, Repr

/-- What an operation hands to its caller (00_scope.md R7, result column). -/
inductive Response where
  /-- A register (`reg_of_code`, `reg_from_base_bits`). -/
  | register (r : Register)
  /-- An optional register (`try_parse`). -/
  | parsed (r : Option Register)
  /-- A bit (`is_extended`). -/
  | bit (b : Bool)
  /-- A number (`base_bits`, `full_bits`, `length`). -/
  | number (n : Nat)
  /-- The result of a bare `decode`. -/
  | decoded (r : Except ErrorKind (Instruction × Nat))
  /-- The bytes the sink holds after an `encode`. -/
  | encoded (bytes : List Byte)
  /-- A stream was constructed (`stream_new`). -/
  | constructed
  /-- The result of `stream_next`: an instruction with its address, or absent. -/
  | stream (p : Option PositionedInstruction)
  /-- The answer of `resolve`. -/
  | target (t : Target)
  deriving DecidableEq, Repr

/-- A Decode Stream: the buffer, the base address, the cursor and the state of the state machine (10_state.md R18). -/
structure DecodeStream where
  /-- `BASE`, the address of buffer index 0. -/
  base : Addr
  /-- `BUF`. -/
  buf : Memory
  /-- The cursor, the program counter within the buffer (R20). -/
  offset : Nat
  /-- The spec's stream field `state`. -/
  status : StreamStatus
  deriving DecidableEq, Repr

/-- The machine: the stream its step advances (10_state.md R18), the other streams its callers hold (R21), and the sink
(R22). `result` and `freeCount` are the model's own fields (log entries 2 and 4). -/
structure State extends DecodeStream where
  /-- The streams constructed before, the latest first; they share nothing but an immutable buffer (R21; log entry 5). -/
  others : List DecodeStream
  sink : Sink
  /-- The result the last completed operation handed to its caller. -/
  result : Option Response
  /-- Selects the next free values for unspecified sink cells. -/
  freeCount : Nat
  deriving DecidableEq, Repr

/-- The reasons an operation stops with an error. -/
inductive Fault where
  /-- InvariantViolation (60_exceptions.md R162), raised by `encode` of an ill-formed value and by `length(Pop(Int(_)))`.
  Safe: no bytes and no next state are claimed. -/
  | invariantViolation
  /-- A push onto a full sink (93_implementation_defined.md U3: stuck). No request reaches it. Safe. -/
  | sinkOverflow
  deriving DecidableEq, Repr

/-- The inputs the machine does not accept. -/
inductive Refusal where
  /-- Raised by an arm of `exec` for an instruction without a meaning; no arm does. Safe. -/
  | notModelled (mnemonic : String)
  /-- `reg_from_base_bits` with bits above 7 (93_implementation_defined.md U1), raised by that request. Safe. -/
  | registerBitsOutOfRange (bits : Nat)
  /-- `reg_of_code` with a code above 15 (40_register_model.md R81: not defined elsewhere), raised by that request. Safe. -/
  | registerCodeOutOfRange (code : Nat)
  /-- `stream_next` on a stream that has not been constructed (92_eei_decisions.md D17), raised by that request. Safe. -/
  | noSuchStream (stream : Nat)
  /-- `stream_new` over a buffer longer than `MAX_BUF` (92_eei_decisions.md D3), raised by that request. Safe. -/
  | bufferTooLong (length : Nat)
  deriving DecidableEq, Repr

/-- The sink after reset: empty. The spec gives its cells no value; zero is the model's DESIGN CHOICE (log entry 3). -/
def Sink.reset : Sink := { cells := Vector.replicate 15 0#8, count := 0 }

/-- After reset, that is after stream construction (10_state.md R23; 70_reset_and_hazards.md R180): offset 0 and has-next.
`BASE` and `BUF` are arguments with no default; 0 and the empty buffer are the model's DESIGN CHOICE (log entry 1). -/
def State.reset : State :=
  { base := 0#64
    buf := []
    offset := 0
    status := .hasNext
    others := []
    sink := Sink.reset
    result := none
    freeCount := 0 }

end Sys2Proof.Machine
end

