-- ==== Sys2Proof/Machine/Ops.lean ====
section
/-! DEFINITION. The named operations over the buffer, the sink and the stream cursor that the meanings and the step share. -/

namespace Sys2Proof.Machine

/-- The buffer that holds these bytes from index 0 on, in canonical form. -/
def Memory.ofBytes (bytes : List Byte) : Memory := (List.range bytes.length).zip bytes

/-- `BUF` as a byte sequence. -/
def Memory.bytes (m : Memory) : List Byte := m.map Prod.snd

/-- `N`, the number of bytes of the buffer (10_state.md R18). -/
def Memory.size (m : Memory) : Nat := m.length

/-- The byte at index `k`, if there is one (20_memory.md R35). -/
def Memory.read (m : Memory) (k : Nat) : Option Byte :=
  match m.find? fun c => c.1 == k with
  | some c => some c.2
  | none => Memory.unlisted

/-- The slice `BUF[k..]` (45_stream_decoder.md R142); it may be empty. -/
def Memory.slice (m : Memory) (k : Nat) : List Byte := m.bytes.drop k

/-- The buffer with `bytes` placed at index `k`: the load that stands for constructing a stream over other bytes. -/
def Memory.place (m : Memory) (k : Nat) (bytes : List Byte) : Memory :=
  Memory.ofBytes (m.bytes.take k ++ List.replicate (k - m.size) 0#8 ++ bytes ++ m.bytes.drop (k + bytes.length))

/-- The bytes the sink holds: its cells below the counter (10_state.md R22). -/
def Sink.contents (k : Sink) : List Byte := k.cells.toList.take k.count

/-- The empty sink an `encode` starts from. Its cells are unspecified: free values (R23; 93_implementation_defined.md U11). -/
def Sink.empty (epoch : Nat) : Sink :=
  { cells := Vector.ofFn fun k => Config.unspecifiedSinkCell epoch k.val, count := 0 }

/-- Append one byte; stuck on a full sink (10_state.md R22; 93_implementation_defined.md U3). -/
def Sink.push (k : Sink) (b : Byte) : Except Fault Sink :=
  if h : k.count < 15 then .ok { cells := k.cells.set k.count b h, count := k.count + 1 } else .error .sinkOverflow

/-- Append bytes in stream order (20_memory.md R44). -/
def Sink.extend (k : Sink) : List Byte → Except Fault Sink
  | [] => .ok k
  | b :: bs => (k.push b).bind fun k' => k'.extend bs

/-- The fault an error kind is to a request. UnrecognizedOpcode is none: it is decode's verdict (60_exceptions.md R161). -/
def faultOf : ErrorKind → Option Fault
  | .invariantViolation => some .invariantViolation
  | .unrecognizedOpcode => none

/-- `encode(i)` into a sink: its canonical bytes appended, or InvariantViolation (41_codec_operations.md R95, R96). -/
def encodeInto (k : Sink) (i : Instruction) : Except Fault Sink :=
  match Codec.encode i with
  | .ok bytes => k.extend bytes
  | .error _ => .error .invariantViolation

/-- `ip = BASE +_64 offset`: the address the cursor denotes (10_state.md R20). -/
def DecodeStream.ip (s : DecodeStream) : Addr := s.base + BitVec.ofNat 64 s.offset

/-- The bytes decode is given: `BUF[offset..]` (45_stream_decoder.md R142). -/
def DecodeStream.remainder (s : DecodeStream) : List Byte := s.buf.slice s.offset

/-- The instruction at the cursor and its length, if the bytes there match a pattern. -/
def DecodeStream.fetch (s : DecodeStream) : Option (Instr × Nat) := decode s.remainder

/-- The success arm of `stream_next` (R142): hand out the instruction with the address before the advance, advance the cursor
by its length, stay in the same status. A value without a length is an InvariantViolation (41_codec_operations.md R98). -/
def deliver (i : Instruction) (s : State) : Host.Outcome State Fault Refusal :=
  match Codec.length i with
  | .ok n =>
    .next { s with
      offset := s.offset + n
      result := some (.stream (some { instruction := i, address := s.ip })) }
  | .error _ => .fault .invariantViolation

/-- The effect of UnrecognizedOpcode on the stream (R142, R144; 60_exceptions.md R166): exhausted for good, nothing handed
out, the cursor unchanged. The block's errors have no entry sequence, save no state and have no return (R166, R167). -/
def endStream (s : State) : State := { s with status := .exhausted, result := some (.stream none) }

/-- `stream_next` in the status exhausted: absent, no change (R142, R146). -/
def stayExhausted (s : State) : State := { s with result := some (.stream none) }

/-- `stream_new(BASE, BUF)` (R141): a new stream with all four fields written. The streams constructed before are kept as
they are: constructing a second stream does not disturb the first (70_reset_and_hazards.md R181). -/
def construct (base : Addr) (bytes : List Byte) (s : State) : State :=
  { s with
    base := base
    buf := Memory.ofBytes bytes
    offset := 0
    status := .hasNext
    others := s.toDecodeStream :: s.others
    result := some .constructed }

/-- The streams that exist: number 0 is the one the step advances, the others follow, the latest constructed first. The spec
gives streams no identifiers (60_exceptions.md R172); the numbers stand for the caller holding a stream (log entry 5). -/
def State.stream (s : State) : Nat → Option DecodeStream
  | 0 => some s.toDecodeStream
  | k + 1 => s.others[k]?

end Sys2Proof.Machine
end

