-- ==== Sys2Proof/Machine/NoOperand.lean ====
section
/-! DEFINITION. Syscall and Ret (spec/44_no_operand.md). The block makes no system call and returns from nothing: a Syscall
enters no mode and a Ret does not end the stream. -/

namespace Sys2Proof.Machine

/-- Syscall, row 7 (R130). -/
def execSyscall (s : State) : Host.Outcome State Fault Refusal := deliver .syscall s

/-- Ret, row 10 (R131). -/
def execRet (s : State) : Host.Outcome State Fault Refusal := deliver .ret s

end Sys2Proof.Machine
end

