-- ==== Sys2Proof/Machine/PushPop.lean ====
section
/-! DEFINITION. Push and Pop (spec/43_push_pop.md). The block has no stack: each is handed out as its tagged value with its
address, and the cursor passes it. The tagged value does not record which row produced it. -/

namespace Sys2Proof.Machine

/-- Push of an immediate, row 6 (R120); the immediate is held sign-extended to 32 bits. -/
def execPushImm8 (imm : I32) (s : State) : Host.Outcome State Fault Refusal :=
  deliver (.push (.int imm)) s

/-- Push of an extended register, row 8 (R121). -/
def execPushRext (r : Register) (s : State) : Host.Outcome State Fault Refusal :=
  deliver (.push (.reg r)) s

/-- Pop of an extended register, row 9 (R122). -/
def execPopRext (r : Register) (s : State) : Host.Outcome State Fault Refusal :=
  deliver (.pop (.reg r)) s

/-- Push of a base register, row 11 (R123). -/
def execPushRbase (r : Register) (s : State) : Host.Outcome State Fault Refusal :=
  deliver (.push (.reg r)) s

/-- Pop of a base register, row 12 (R124). -/
def execPopRbase (r : Register) (s : State) : Host.Outcome State Fault Refusal :=
  deliver (.pop (.reg r)) s

end Sys2Proof.Machine
end

