-- ==== Sys2Proof/Machine/RipRelative.lean ====
section
/-! DEFINITION. The displacement-carrying instructions (spec/42_rip_relative.md). The block moves, computes, jumps and calls
nothing: each is handed out as its tagged value with its address, and the cursor passes it (45_stream_decoder.md R142, R145). -/

namespace Sys2Proof.Machine

/-- Mov, row 1 (R110). -/
def execMov (disp : I32) (s : State) : Host.Outcome State Fault Refusal :=
  deliver (.mov (.reg .rax) (.int disp)) s

/-- Lea, row 2 (R111). -/
def execLea (disp : I32) (s : State) : Host.Outcome State Fault Refusal :=
  deliver (.lea (.reg .rcx) (.int disp)) s

/-- Jmp, row 3 (R112); the stream does not follow it. -/
def execJmp (disp : I32) (s : State) : Host.Outcome State Fault Refusal :=
  deliver (.jmp (.int disp)) s

/-- CallIndirect, row 4 (R113); the stream does not follow it. -/
def execCallIndirect (disp : I32) (s : State) : Host.Outcome State Fault Refusal :=
  deliver (.callIndirect (.int disp)) s

/-- CallDirect, row 5 (R114); the stream does not follow it. -/
def execCallDirect (disp : I32) (s : State) : Host.Outcome State Fault Refusal :=
  deliver (.callDirect (.int disp)) s

end Sys2Proof.Machine
end

