-- ==== Sys2Proof/Machine/Dispatch.lean ====
section
/-! DEFINITION. One arm for each constructor of Instr. -/

namespace Sys2Proof.Machine

def exec (i : Instr) (s : State) : Host.Outcome State Fault Refusal :=
  match i with
  | .mov disp => Sys2Proof.Machine.execMov disp s
  | .lea disp => Sys2Proof.Machine.execLea disp s
  | .jmp disp => Sys2Proof.Machine.execJmp disp s
  | .callIndirect disp => Sys2Proof.Machine.execCallIndirect disp s
  | .callDirect disp => Sys2Proof.Machine.execCallDirect disp s
  | .pushImm8 imm => Sys2Proof.Machine.execPushImm8 imm s
  | .syscall => Sys2Proof.Machine.execSyscall s
  | .pushRext r => Sys2Proof.Machine.execPushRext r s
  | .popRext r => Sys2Proof.Machine.execPopRext r s
  | .ret => Sys2Proof.Machine.execRet s
  | .pushRbase r => Sys2Proof.Machine.execPushRbase r s
  | .popRbase r => Sys2Proof.Machine.execPopRbase r s

end Sys2Proof.Machine
end

