-- ==== Sys2Proof/Machine/Step.lean ====
section
/-! DEFINITION. The machine's step, which is `stream_next` (spec/45_stream_decoder.md R142), and the placing of one
instruction where the step fetches. -/

namespace Sys2Proof.Machine

/-- `stream_next` (R142). The exhausted test comes before the decode attempt (60_exceptions.md R165). -/
def step (s : State) : Host.Outcome State Fault Refusal :=
  match s.status with
  | .exhausted => .next (stayExhausted s)
  | .hasNext =>
    match s.fetch with
    | some (i, _) => exec i s
    | none => .next (endStream s)

/-- The state with an opcode-table word stored in the buffer at the cursor and the stream has-next, so that the next step
fetches and runs exactly that instruction (log entry 1). -/
def State.withFetchWord (s : State) (nbits w : Nat) : State :=
  { s with buf := s.buf.place s.offset (tableBytes nbits w), status := .hasNext }

end Sys2Proof.Machine
end

