-- ==== Sys2Proof/Machine/Requests.lean ====
section
/-! DEFINITION. The block's interface at transaction level: the operations of spec/00_scope.md R7, each one atomic
transaction of the machine. -/

namespace Sys2Proof.Machine

/-- The operations a caller may request, with their inputs (R7; `reg_of_code` from 40_register_model.md R81). -/
inductive Request where
  | regOfCode (c : Nat)
  | regFromBaseBits (bits : Nat) (ext : Bool)
  | tryParse (byte : Byte) (ext : Bool)
  | isExtended (r : Register)
  | baseBits (r : Register)
  | fullBits (r : Register)
  | decode (w : List Byte)
  | encode (i : Instruction)
  | length (i : Instruction)
  | streamNew (base : Addr) (bytes : List Byte)
  | streamNext (stream : Nat)
  | resolve (p : PositionedInstruction)
  deriving DecidableEq, Repr

/-- An operation that writes no state completes by handing out its result (R7, state column "none"). -/
def answer (r : Response) (s : State) : Host.Outcome State Fault Refusal := .next { s with result := some r }

/-- `reg_of_code(c)`: not defined above 15 (40_register_model.md R81). -/
def requestRegOfCode (c : Nat) (s : State) : Host.Outcome State Fault Refusal :=
  if c < 16 then answer (.register (Sys2Proof.regOfCode (BitVec.ofNat 4 c))) s
  else .refused (.registerCodeOutOfRange c)

/-- `reg_from_base_bits(bits, ext)`: refused above 7 (40_register_model.md R82; 93_implementation_defined.md U1). -/
def requestRegFromBaseBits (bits : Nat) (ext : Bool) (s : State) : Host.Outcome State Fault Refusal :=
  if bits < 8 then answer (.register (Sys2Proof.regFromBaseBits (BitVec.ofNat 3 bits) ext)) s
  else .refused (.registerBitsOutOfRange bits)

/-- `encode(i)`: starts from an empty sink and hands out what the sink holds at the end (10_state.md R22; 92_eei_decisions.md
D18). On InvariantViolation nothing is written (41_codec_operations.md R96; D10). -/
def requestEncode (i : Instruction) (s : State) : Host.Outcome State Fault Refusal :=
  match encodeInto (Sink.empty s.freeCount) i with
  | .ok k =>
    .next { s with
      sink := k
      result := some (.encoded k.contents)
      freeCount := s.freeCount + 1 }
  | .error f => .fault f

/-- `length(i)` (41_codec_operations.md R97, R98). -/
def requestLength (i : Instruction) (s : State) : Host.Outcome State Fault Refusal :=
  match Codec.length i with
  | .ok n => answer (.number n) s
  | .error _ => .fault .invariantViolation

/-- `stream_new(BASE, BUF)` (45_stream_decoder.md R141), for a buffer of at most `MAX_BUF` bytes (D3). -/
def requestStreamNew (base : Addr) (bytes : List Byte) (s : State) : Host.Outcome State Fault Refusal :=
  if bytes.length ≤ Config.maxBuf then .next (construct base bytes s) else .refused (.bufferTooLong bytes.length)

/-- `stream_next(s)` on stream number `k` (45_stream_decoder.md R142): the machine's step on that stream, with every other
stream left as it is (10_state.md R21). A stream that was not constructed is refused (D17). -/
def requestStreamNext (k : Nat) (s : State) : Host.Outcome State Fault Refusal :=
  match k with
  | 0 => step s
  | k + 1 =>
    match s.others[k]? with
    | none => .refused (.noSuchStream (k + 1))
    | some stream =>
      match step { s with toDecodeStream := stream } with
      | .next t => .next { t with toDecodeStream := s.toDecodeStream, others := s.others.set k t.toDecodeStream }
      | .fault r => .fault r
      | .refused r => .refused r

/-- One requested operation, completed. -/
def perform (q : Request) (s : State) : Host.Outcome State Fault Refusal :=
  match q with
  | .regOfCode c => requestRegOfCode c s
  | .regFromBaseBits bits ext => requestRegFromBaseBits bits ext s
  | .tryParse byte ext => answer (.parsed (Sys2Proof.tryParse byte ext)) s
  | .isExtended r => answer (.bit (Sys2Proof.isExtended r)) s
  | .baseBits r => answer (.number (Sys2Proof.baseBits r).toNat) s
  | .fullBits r => answer (.number (Sys2Proof.fullBits r).toNat) s
  | .decode w => answer (.decoded (Codec.decode w)) s
  | .encode i => requestEncode i s
  | .length i => requestLength i s
  | .streamNew base bytes => requestStreamNew base bytes s
  | .streamNext k => requestStreamNext k s
  | .resolve p => answer (.target (Codec.resolve p)) s

/-- What the last `stream_next` handed out, if the last operation was one that handed out an instruction. -/
def State.yielded (s : State) : Option PositionedInstruction :=
  match s.result with
  | some (.stream (some p)) => some p
  | _ => none

/-- The results of at most `fuel` calls of `stream_next` from `s`, up to the first absent, and the state they end in. -/
def collect : (fuel : Nat) → State → List PositionedInstruction × State
  | 0, s => ([], s)
  | fuel + 1, s =>
    match step s with
    | .next t =>
      match t.yielded with
      | some p => (p :: (collect fuel t).1, (collect fuel t).2)
      | none => ([], t)
    | .fault _ | .refused _ => ([], s)

/-- `run(BASE, BUF)` (45_stream_decoder.md R143), over any earlier state: construct the stream, then call `stream_next` until
it answers absent. A buffer of N bytes yields at most N instructions, so N + 1 calls are enough. -/
def run (base : Addr) (bytes : List Byte) (s : State) : List PositionedInstruction × State :=
  collect (bytes.length + 1) (construct base bytes s)

end Sys2Proof.Machine
end

