-- ==== Sys2Proof/Safety.lean ====
section
/-! DEFINITION. The invariant of the machine (spec/10_state.md R19, R18, R22) and the terms claims about whole streams use. -/

namespace Sys2Proof.Safety

open Sys2Proof.Machine

/-- The invariant of one stream: the buffer is in canonical form and no longer than an address space (00_scope.md R4), the
cursor lies in it (R19 a), and an exhausted stream stands at bytes that match no pattern (R19 d). -/
structure StreamInv (s : DecodeStream) : Prop where
  bufferCanonical : s.buf.wf = true
  bufferBounded : s.buf.size ≤ Config.maxBuf
  offsetInBuffer : s.offset ≤ s.buf.size
  exhaustedUndecodable : s.status = .exhausted → s.fetch = none

/-- The invariant of the machine: it holds of every stream, and the sink's counter is within its capacity (R22). -/
structure Inv (s : State) : Prop where
  thisStream : StreamInv s.toDecodeStream
  otherStreams : ∀ t ∈ s.others, StreamInv t
  sinkWithinCapacity : s.sink.count ≤ 15

/-- The byte sequence a list of positioned instructions re-encodes to, if every one encodes. -/
def reencode : List PositionedInstruction → Except ErrorKind (List Byte)
  | [] => .ok []
  | p :: ps =>
    match Codec.encode p.instruction, reencode ps with
    | .ok b, .ok bs => .ok (b ++ bs)
    | .error e, _ => .error e
    | _, .error e => .error e

/-- The sum of the lengths of a list of positioned instructions, if every one has a length. -/
def totalLength : List PositionedInstruction → Except ErrorKind Nat
  | [] => .ok 0
  | p :: ps =>
    match Codec.length p.instruction, totalLength ps with
    | .ok n, .ok m => .ok (n + m)
    | .error e, _ => .error e
    | _, .error e => .error e

/-- The instructions stand one after the other from address `a` on: each begins where the one before it ends
(45_stream_decoder.md R143). -/
def Tiles : Addr → List PositionedInstruction → Prop
  | _, [] => True
  | a, p :: ps => p.address = a ∧ ∃ n, Codec.length p.instruction = .ok n ∧ Tiles (a + BitVec.ofNat 64 n) ps

/-- Instructions placed one after the other from address `a` on. -/
def placeFrom : Addr → List Instr → List PositionedInstruction
  | _, [] => []
  | a, i :: is => { instruction := i.value, address := a } :: placeFrom (a + BitVec.ofNat 64 (encode i).length) is

end Sys2Proof.Safety
end

