-- ==== Sys2Proof/Certificates/Slice0/Obligations.lean ====
section
/-! DEFINITION. The statements about the machine, for the provers. Each names the rule of spec/ it formalises; where a clause
rests on a decision or an inference of the spec (`[decision: ...]`, `[derived: ...]`) or on a log entry of the model, the
docstring says so. -/

open Sys2Proof Sys2Proof.Machine Sys2Proof.Safety

/-! ### The Register Model -/

/-- 40_register_model.md R80: the fixed lookup in both directions. -/
def Obligations.RegisterTableInBothDirections : Prop :=
  ∀ (c : BitVec 4) (r : Register),
    (regOfCode c = r ↔ (c, r) ∈ ([(0, .rax), (1, .rcx), (2, .rdx), (3, .rbx), (4, .rsp), (5, .rbp), (6, .rsi), (7, .rdi),
      (8, .r8), (9, .r9), (10, .r10), (11, .r11), (12, .r12), (13, .r13), (14, .r14), (15, .r15)] :
        List (BitVec 4 × Register))) ∧
    (code r = c ↔ regOfCode c = r)

/-- 40_register_model.md R84, R85, R86: the extension bit, the shared base bits and the full 4-bit number. -/
def Obligations.RegisterBitsOfEachRegister : Prop :=
  ∀ r : Register,
    (isExtended r = true ↔ r ∈ ([.r8, .r9, .r10, .r11, .r12, .r13, .r14, .r15] : List Register)) ∧
    (baseBits r).toNat = (code r).toNat % 8 ∧
    (∀ q : Register, baseBits q = baseBits r ↔ (code q).toNat % 8 = (code r).toNat % 8) ∧
    fullBits r = (baseBits r).setWidth 4 ||| (if isExtended r then 0b1000#4 else 0#4) ∧
    fullBits r = code r

/-- 40_register_model.md section "Laws" (derived there), with `try_parse` under decision D6: base bits and extension bit
name a register and are named by it, siblings differ by 8, and only bits 2:0 of a raw byte count. -/
def Obligations.RegisterModelLaws : Prop :=
  (∀ r : Register, regFromBaseBits (baseBits r) (isExtended r) = r ∧ regOfCode (fullBits r) = r) ∧
  (∀ (bits : BitVec 3) (ext : Bool),
    baseBits (regFromBaseBits bits ext) = bits ∧ isExtended (regFromBaseBits bits ext) = ext) ∧
  (∀ c : BitVec 4, fullBits (regOfCode c) = c) ∧
  (∀ r q : Register, fullBits r = fullBits q → r = q) ∧
  (∀ r q : Register, (baseBits r = baseBits q ∧ r ≠ q) ↔
    ((code r).toNat + 8 = (code q).toNat ∨ (code q).toNat + 8 = (code r).toNat)) ∧
  (∀ (byte : Byte) (ext : Bool),
    tryParse byte ext = some (regFromBaseBits (BitVec.ofNat 3 (byte.toNat % 8)) ext))

/-- The register requests answer for every input in their domain and refuse the rest (40_register_model.md; decisions D6,
D7), and write nothing but the result. -/
def Obligations.RegisterRequestsAnswerOrRefuse : Prop :=
  ∀ s : State,
    (∀ (bits : Nat) (ext : Bool), bits < 8 → perform (.regFromBaseBits bits ext) s =
      .next { s with result := some (.register (regOfCode (BitVec.ofNat 4 (bits + if ext then 8 else 0)))) }) ∧
    (∀ (bits : Nat) (ext : Bool), 8 ≤ bits →
      perform (.regFromBaseBits bits ext) s = .refused (.registerBitsOutOfRange bits)) ∧
    (∀ c : Nat, c < 16 → ∃ r, perform (.regOfCode c) s = .next { s with result := some (.register r) } ∧
      (code r).toNat = c) ∧
    (∀ c : Nat, 16 ≤ c → perform (.regOfCode c) s = .refused (.registerCodeOutOfRange c)) ∧
    (∀ (byte : Byte) (ext : Bool), ∃ r, perform (.tryParse byte ext) s =
      .next { s with result := some (.parsed (some r)) } ∧
        (code r).toNat = byte.toNat % 8 + if ext then 8 else 0) ∧
    (∀ r : Register,
      perform (.isExtended r) s = .next { s with result := some (.bit (decide (8 ≤ (code r).toNat))) } ∧
      perform (.baseBits r) s = .next { s with result := some (.number ((code r).toNat % 8)) } ∧
      perform (.fullBits r) s = .next { s with result := some (.number (code r).toNat) })

/-! ### Numbers in bytes -/

/-- 20_memory.md section 2 and 41_codec_operations.md section 4 (derived there): the displacement is little-endian and signed,
encode emits its four bytes, the immediate byte is signed. -/
def Obligations.FieldBytesReadAsSignedNumbers : Prop :=
  (∀ d0 d1 d2 d3 : Byte, (le32s d0 d1 d2 d3).toInt =
    d0.toNat + 256 * d1.toNat + 65536 * d2.toNat + 16777216 * d3.toNat - (if 128 ≤ d3.toNat then 4294967296 else 0)) ∧
  (∀ v : I32, (le32 v).map BitVec.toNat =
    [v.toNat % 256, v.toNat / 256 % 256, v.toNat / 65536 % 256, v.toNat / 16777216]) ∧
  (∀ b : Byte, (sext8to32 b).toInt = b.toNat - (if 128 ≤ b.toNat then 256 else 0))

/-! ### decode -/

/-- 41_codec_operations.md R90: what decode answers for every input. -/
def Obligations.DecodeRecognisesExactlyTheTable : Prop :=
  (∀ (w : List Byte) (i : Instruction) (n : Nat), Codec.decode w = .ok (i, n) ↔
    (∃ d0 d1 d2 d3 t, w = 0x48#8 :: 0x8B#8 :: 0x05#8 :: d0 :: d1 :: d2 :: d3 :: t ∧
      i = .mov (.reg .rax) (.int (le32s d0 d1 d2 d3)) ∧ n = 7) ∨
    (∃ d0 d1 d2 d3 t, w = 0x48#8 :: 0x8D#8 :: 0x0D#8 :: d0 :: d1 :: d2 :: d3 :: t ∧
      i = .lea (.reg .rcx) (.int (le32s d0 d1 d2 d3)) ∧ n = 7) ∨
    (∃ d0 d1 d2 d3 t, w = 0xFF#8 :: 0x25#8 :: d0 :: d1 :: d2 :: d3 :: t ∧
      i = .jmp (.int (le32s d0 d1 d2 d3)) ∧ n = 6) ∨
    (∃ d0 d1 d2 d3 t, w = 0xFF#8 :: 0x15#8 :: d0 :: d1 :: d2 :: d3 :: t ∧
      i = .callIndirect (.int (le32s d0 d1 d2 d3)) ∧ n = 6) ∨
    (∃ d0 d1 d2 d3 t, w = 0xE8#8 :: d0 :: d1 :: d2 :: d3 :: t ∧
      i = .callDirect (.int (le32s d0 d1 d2 d3)) ∧ n = 5) ∨
    (∃ ib t, w = 0x6A#8 :: ib :: t ∧ i = .push (.int (sext8to32 ib)) ∧ n = 2) ∨
    (∃ t, w = 0x0F#8 :: 0x05#8 :: t ∧ i = .syscall ∧ n = 2) ∨
    (∃ rb t, w = 0x41#8 :: rb :: t ∧ 0x50#8 ≤ rb ∧ rb ≤ 0x57#8 ∧
      i = .push (.reg (regFromBaseBits (registerField rb) true)) ∧ n = 2) ∨
    (∃ rb t, w = 0x41#8 :: rb :: t ∧ 0x58#8 ≤ rb ∧ rb ≤ 0x5F#8 ∧
      i = .pop (.reg (regFromBaseBits (registerField rb) true)) ∧ n = 2) ∨
    (∃ t, w = 0xC3#8 :: t ∧ i = .ret ∧ n = 1) ∨
    (∃ rb t, w = rb :: t ∧ 0x50#8 ≤ rb ∧ rb ≤ 0x57#8 ∧
      i = .push (.reg (regFromBaseBits (registerField rb) false)) ∧ n = 1) ∨
    (∃ rb t, w = rb :: t ∧ 0x58#8 ≤ rb ∧ rb ≤ 0x5F#8 ∧
      i = .pop (.reg (regFromBaseBits (registerField rb) false)) ∧ n = 1)) ∧
  (∀ (w : List Byte) (e : ErrorKind), Codec.decode w = .error e → e = .unrecognizedOpcode) ∧
  (∀ (w : List Byte) (i : Instruction) (n : Nat), Codec.decode w = .ok (i, n) → i.wf = true)

/-- 30_encoding.md section 3 (derived there): no input matches two rows, and trying the rows in any other order changes no
result. -/
def Obligations.RowsAreDisjointAndOrderFree : Prop :=
  (∀ (q r : Row) (w : List Byte), q.matches w = true → r.matches w = true → q = r) ∧
  (∀ (order : List Row) (w : List Byte), order.Perm rows →
    (order.find? fun r => r.matches w) = rows.find? fun r => r.matches w)

/-- 30_encoding.md section 7: the byte-wise mask-and-match of spec/opcode_table.json is exact for every row, and each row has
its format's length. -/
def Obligations.MaskAndMatchIsExact : Prop :=
  ∀ r : Row, r.length = r.format.length ∧ ∀ w : List Byte,
    (r.matches w = true ↔ r.length ≤ w.length ∧ ∀ (k : Nat) (b m x : Byte), w[k]? = some b → r.maskBytes[k]? = some m →
      r.matchBytes[k]? = some x → b &&& m = x)

/-- 30_encoding.md section 3 (derived there): looking at the first byte and then at what it decides gives the same decoder,
and exactly the 23 listed first bytes can begin an instruction. -/
def Obligations.FirstByteMapIsTheDecoder : Prop :=
  (∀ w : List Byte, decodeByFirstByte w = decode w) ∧
  (∀ b : Byte, (∃ t, (decode (b :: t)).isSome = true) ↔
    b ∈ ([0x0F#8, 0x41#8, 0x48#8, 0x6A#8, 0xC3#8, 0xE8#8, 0xFF#8] : List Byte) ∨ (0x50#8 ≤ b ∧ b ≤ 0x5F#8))

/-- 41_codec_operations.md R92: where no pattern matches, and for every truncated instruction and the empty input, decode
answers absent, and a request for it writes no state beside the answer. -/
def Obligations.UnmatchedOrTruncatedInputIsAbsent : Prop :=
  (∀ w : List Byte, (∀ r ∈ rows, r.matches w = false) → Codec.decode w = .error .unrecognizedOpcode) ∧
  (∀ (i : Instr) (k : Nat), i.wf = true → k < (encode i).length →
    Codec.decode ((encode i).take k) = .error .unrecognizedOpcode) ∧
  (∀ (w : List Byte) (s : State), Codec.decode w = .error .unrecognizedOpcode →
    perform (.decode w) s = .next { s with result := some (.decoded (.error .unrecognizedOpcode)) })

/-- 41_codec_operations.md R93: decode answers absent or an instruction for every byte sequence, consumes only bytes that are
present, ignores what follows the matched length, and depends on the first seven bytes only. -/
def Obligations.DecodeIgnoresTrailingBytes : Prop :=
  (∀ w : List Byte, Codec.decode w = .error .unrecognizedOpcode ∨ ∃ i n, Codec.decode w = .ok (i, n)) ∧
  (∀ (w : List Byte) (i : Instruction) (n : Nat), Codec.decode w = .ok (i, n) →
    n ≤ w.length ∧ ∀ t, Codec.decode (w.take n ++ t) = .ok (i, n)) ∧
  (∀ w : List Byte, Codec.decode (w.take 7) = Codec.decode w)

/-- 41_codec_operations.md section 1 (derived there): the values decode returns are exactly the well-formed ones. -/
def Obligations.DecodedValuesAreTheWellFormedOnes : Prop :=
  ∀ i : Instruction, i.wf = true ↔ ∃ (w : List Byte) (n : Nat), Codec.decode w = .ok (i, n)

/-! ### encode and length -/

/-- 30_encoding.md section 6: the canonical bytes of every well-formed value, and the one-to-one correspondence between these
values and the matching byte sequences cut to their consumed length (the correspondence is derived there, and its converse
direction in 41_codec_operations.md section 4). -/
def Obligations.EncodeEmitsTheCanonicalBytes : Prop :=
  (∀ d : I32, Codec.encode (.mov (.reg .rax) (.int d)) = .ok ([0x48#8, 0x8B#8, 0x05#8] ++ le32 d) ∧
    Codec.encode (.lea (.reg .rcx) (.int d)) = .ok ([0x48#8, 0x8D#8, 0x0D#8] ++ le32 d) ∧
    Codec.encode (.jmp (.int d)) = .ok ([0xFF#8, 0x25#8] ++ le32 d) ∧
    Codec.encode (.callIndirect (.int d)) = .ok ([0xFF#8, 0x15#8] ++ le32 d) ∧
    Codec.encode (.callDirect (.int d)) = .ok ([0xE8#8] ++ le32 d)) ∧
  (∀ v : I32, -128 ≤ v.toInt → v.toInt ≤ 127 → Codec.encode (.push (.int v)) = .ok [0x6A#8, lo8 v]) ∧
  Codec.encode .syscall = .ok [0x0F#8, 0x05#8] ∧
  Codec.encode .ret = .ok [0xC3#8] ∧
  (∀ r : Register, 8 ≤ (code r).toNat →
    Codec.encode (.push (.reg r)) = .ok [0x41#8, 0x50#8 + BitVec.ofNat 8 ((code r).toNat % 8)] ∧
    Codec.encode (.pop (.reg r)) = .ok [0x41#8, 0x58#8 + BitVec.ofNat 8 ((code r).toNat % 8)]) ∧
  (∀ r : Register, (code r).toNat < 8 →
    Codec.encode (.push (.reg r)) = .ok [0x50#8 + BitVec.ofNat 8 ((code r).toNat)] ∧
    Codec.encode (.pop (.reg r)) = .ok [0x58#8 + BitVec.ofNat 8 ((code r).toNat)]) ∧
  (∀ (i j : Instruction) (b : List Byte), Codec.encode i = .ok b → Codec.encode j = .ok b → i = j) ∧
  (∀ (i : Instruction) (b : List Byte), Codec.encode i = .ok b → Codec.decode b = .ok (i, b.length)) ∧
  (∀ (w : List Byte) (i : Instruction) (n : Nat), Codec.decode w = .ok (i, n) → Codec.encode i = .ok (w.take n))

/-- 41_codec_operations.md section 2: every ill-formed shape is an InvariantViolation, for the request a fault, and no
well-formed value is (the range of the immediate is decision D8, the fault decision D10). -/
def Obligations.EncodeRefusesIllFormedValues : Prop :=
  (∀ a b : Operand, (a ≠ .reg .rax ∨ ∃ r, b = .reg r) → Codec.encode (.mov a b) = .error .invariantViolation) ∧
  (∀ a b : Operand, (a ≠ .reg .rcx ∨ ∃ r, b = .reg r) → Codec.encode (.lea a b) = .error .invariantViolation) ∧
  (∀ r : Register, Codec.encode (.jmp (.reg r)) = .error .invariantViolation ∧
    Codec.encode (.callIndirect (.reg r)) = .error .invariantViolation ∧
    Codec.encode (.callDirect (.reg r)) = .error .invariantViolation) ∧
  (∀ v : I32, Codec.encode (.pop (.int v)) = .error .invariantViolation) ∧
  (∀ v : I32, (v.toInt < -128 ∨ 127 < v.toInt) → Codec.encode (.push (.int v)) = .error .invariantViolation) ∧
  (∀ i : Instruction, i.wf = true ↔ ∃ b, Codec.encode i = .ok b) ∧
  (∀ (i : Instruction) (s : State), i.wf = false → perform (.encode i) s = .fault .invariantViolation)

/-- 41_codec_operations.md R97: the instruction-length compute table. -/
def Obligations.LengthByVariant : Prop :=
  (∀ a b : Operand, Codec.length (.mov a b) = .ok 7 ∧ Codec.length (.lea a b) = .ok 7) ∧
  (∀ a : Operand, Codec.length (.callDirect a) = .ok 5 ∧ Codec.length (.callIndirect a) = .ok 6 ∧
    Codec.length (.jmp a) = .ok 6) ∧
  (∀ v : I32, Codec.length (.push (.int v)) = .ok 2) ∧
  (∀ r : Register, Codec.length (.push (.reg r)) = .ok (1 + if 8 ≤ (code r).toNat then 1 else 0) ∧
    Codec.length (.pop (.reg r)) = .ok (1 + if 8 ≤ (code r).toNat then 1 else 0)) ∧
  Codec.length .ret = .ok 1 ∧ Codec.length .syscall = .ok 2

/-- 41_codec_operations.md section 3: the one value without a length is `Pop(Int(_))` (decision D9); asking for any other is
answered with it, asking for that one is a fault. -/
def Obligations.LengthRequestsAnswerOrFault : Prop :=
  (∀ (v : I32) (s : State), Codec.length (.pop (.int v)) = .error .invariantViolation ∧
    perform (.length (.pop (.int v))) s = .fault .invariantViolation) ∧
  (∀ (i : Instruction) (s : State), (∀ v, i ≠ .pop (.int v)) → ∃ n, Codec.length i = .ok n ∧
    perform (.length i) s = .next { s with result := some (.number n) })

/-- 41_codec_operations.md section 3 (derived there): the encoding of a well-formed value has the computed length, which is 1,
2, 5, 6 or 7. -/
def Obligations.EncodingHasTheComputedLength : Prop :=
  ∀ i : Instruction, i.wf = true → ∃ b, Codec.encode i = .ok b ∧ Codec.length i = .ok b.length ∧
    b.length ∈ ([1, 2, 5, 6, 7] : List Nat)

/-- 41_codec_operations.md R100: the round-trip law. -/
def Obligations.DecodeThenEncodeReturnsTheBytes : Prop :=
  ∀ (w : List Byte) (i : Instruction) (n : Nat), Codec.decode w = .ok (i, n) →
    Codec.encode i = .ok (w.take n) ∧ Codec.length i = .ok n

/-- 41_codec_operations.md section 4, the converse law (derived there): the encoding of every well-formed value decodes to it,
whatever bytes follow. -/
def Obligations.EncodeThenDecodeReturnsTheValue : Prop :=
  ∀ i : Instruction, i.wf = true → ∃ b, Codec.encode i = .ok b ∧
    ∀ t, Codec.decode (b ++ t) = .ok (i, b.length)

/-- Decode and encode agree on every well-formed instruction of every row (41_codec_operations.md section 4, derived there). -/
def Obligations.EveryInstrDecodesFromItsEncoding : Prop :=
  ∀ (i : Instr) (t : List Byte), i.wf = true → decode (encode i ++ t) = some (i, (encode i).length)

/-- 60_exceptions.md section 3 (derived there): decode raises only UnrecognizedOpcode, encode and length only
InvariantViolation. -/
def Obligations.ErrorKindsStayApart : Prop :=
  (∀ (w : List Byte) (e : ErrorKind), Codec.decode w = .error e → e = .unrecognizedOpcode) ∧
  (∀ (i : Instruction) (e : ErrorKind), Codec.encode i = .error e → e = .invariantViolation) ∧
  (∀ (i : Instruction) (e : ErrorKind), Codec.length i = .error e → e = .invariantViolation)

/-! ### resolve -/

/-- 45_stream_decoder.md section 2, in the range where the sum is an address: the target is the instruction's own address plus
its own length plus the displacement, for the five variants that carry one (Lea by 90_conflicts.md C4). -/
def Obligations.ResolveAddsToTheFollowingAddress : Prop :=
  ∀ (a : Addr) (d : I32) (i : Instruction) (n : Nat),
    (i, n) ∈ [(Instruction.mov (.reg .rax) (.int d), 7), (Instruction.lea (.reg .rcx) (.int d), 7),
      (Instruction.jmp (.int d), 6), (Instruction.callIndirect (.int d), 6), (Instruction.callDirect (.int d), 5)] →
    Codec.length i = .ok n ∧
    (0 ≤ (a.toNat : Int) + n + d.toInt → (a.toNat : Int) + n + d.toInt < 2 ^ 64 →
      ∃ target : Addr, Codec.resolve { instruction := i, address := a } = .address target ∧
        (target.toNat : Int) = a.toNat + n + d.toInt)

/-- 45_stream_decoder.md section 2: an instruction without a displacement has no target; asking is a normal result and writes
no state beside the answer (that an immediate is no displacement is decision D12). -/
def Obligations.ResolveIsNotApplicableWithoutDisplacement : Prop :=
  ∀ (a : Addr) (o : Operand) (s : State),
    ∀ i ∈ [Instruction.push o, Instruction.pop o, Instruction.ret, Instruction.syscall],
      Codec.resolve { instruction := i, address := a } = .notApplicable ∧
      perform (.resolve { instruction := i, address := a }) s =
        .next { s with result := some (.target .notApplicable) }

/-- Outside that range the sum wraps modulo 2^64 (decision D2); ill-formed values resolve by tag and displacement or not at
all (decision D25); the switch LEA_RESOLVES takes Lea's target away (decision D11). -/
def Obligations.ResolveWrapsAndLooksOnlyAtTheDisplacement : Prop :=
  (∀ (a : Addr) (d : I32) (o : Operand) (i : Instruction) (n : Nat),
    (i, n) ∈ [(Instruction.mov o (.int d), 7), (Instruction.lea o (.int d), 7),
      (Instruction.jmp (.int d), 6), (Instruction.callIndirect (.int d), 6), (Instruction.callDirect (.int d), 5)] →
    ∃ target : Addr, Codec.resolve { instruction := i, address := a } = .address target ∧
      (target.toNat : Int) = ((a.toNat : Int) + n + d.toInt) % 2 ^ 64) ∧
  (∀ (a : Addr) (o : Operand) (r : Register),
    ∀ i ∈ [Instruction.mov o (.reg r), .lea o (.reg r), .jmp (.reg r), .callIndirect (.reg r), .callDirect (.reg r)],
      Codec.resolve { instruction := i, address := a } = .notApplicable) ∧
  (∀ (a : Addr) (x o : Operand),
    Codec.resolveWith false { instruction := .lea x o, address := a } = .notApplicable)

/-- 45_stream_decoder.md R151: the worked example of a target. The address 0x1007 it counts from is the address of the
instruction that follows in the example stream. -/
def Obligations.SourceResolveExample : Prop :=
  (∀ d : I32, 0 ≤ (0x1001 : Int) + 6 + d.toInt →
    Codec.length (.callIndirect (.int d)) = .ok 6 ∧
    ∃ target : Addr, Codec.resolve { instruction := .callIndirect (.int d), address := 0x1001#64 } = .address target ∧
      (target.toNat : Int) = 0x1001 + 6 + d.toInt) ∧
  Codec.resolve { instruction := .callIndirect (.int 0x69696969#32), address := 0x1001#64 } = .address 0x69697970#64 ∧
  (∀ s : State, ∃ p q r t, (run 0x1000#64 [0x50#8, 0xFF#8, 0x15#8, 0x69#8, 0x69#8, 0x69#8, 0x69#8, 0x58#8, 0xC3#8] s).1 =
    [p, ⟨.callIndirect (.int 0x69696969#32), q⟩, ⟨.pop (.reg .rax), r⟩, t] ∧ q = 0x1001#64 ∧ r = 0x1007#64)

/-! ### The meanings of the twelve instructions -/

/-- The displacement-carrying instructions complete in every state (42_rip_relative.md; 45_stream_decoder.md section 1): each
is handed out with the address of the cursor, the cursor passes it, and nothing else changes. -/
def Obligations.RipRelativeInstructionsComplete : Prop :=
  ∀ (d : I32) (s : State),
    exec (.mov d) s = .next { s with
      offset := s.offset + 7
      result := some (.stream (some ⟨.mov (.reg .rax) (.int d), s.base + BitVec.ofNat 64 s.offset⟩)) } ∧
    exec (.lea d) s = .next { s with
      offset := s.offset + 7
      result := some (.stream (some ⟨.lea (.reg .rcx) (.int d), s.base + BitVec.ofNat 64 s.offset⟩)) } ∧
    exec (.jmp d) s = .next { s with
      offset := s.offset + 6
      result := some (.stream (some ⟨.jmp (.int d), s.base + BitVec.ofNat 64 s.offset⟩)) } ∧
    exec (.callIndirect d) s = .next { s with
      offset := s.offset + 6
      result := some (.stream (some ⟨.callIndirect (.int d), s.base + BitVec.ofNat 64 s.offset⟩)) } ∧
    exec (.callDirect d) s = .next { s with
      offset := s.offset + 5
      result := some (.stream (some ⟨.callDirect (.int d), s.base + BitVec.ofNat 64 s.offset⟩)) }

/-- Push and Pop complete in every state (43_push_pop.md; 45_stream_decoder.md section 1), for every immediate and every
register of their row. -/
def Obligations.PushPopInstructionsComplete : Prop :=
  ∀ (v : I32) (r : Register) (s : State),
    exec (.pushImm8 v) s = .next { s with
      offset := s.offset + 2
      result := some (.stream (some ⟨.push (.int v), s.base + BitVec.ofNat 64 s.offset⟩)) } ∧
    (8 ≤ (code r).toNat →
      exec (.pushRext r) s = .next { s with
        offset := s.offset + 2
        result := some (.stream (some ⟨.push (.reg r), s.base + BitVec.ofNat 64 s.offset⟩)) } ∧
      exec (.popRext r) s = .next { s with
        offset := s.offset + 2
        result := some (.stream (some ⟨.pop (.reg r), s.base + BitVec.ofNat 64 s.offset⟩)) }) ∧
    ((code r).toNat < 8 →
      exec (.pushRbase r) s = .next { s with
        offset := s.offset + 1
        result := some (.stream (some ⟨.push (.reg r), s.base + BitVec.ofNat 64 s.offset⟩)) } ∧
      exec (.popRbase r) s = .next { s with
        offset := s.offset + 1
        result := some (.stream (some ⟨.pop (.reg r), s.base + BitVec.ofNat 64 s.offset⟩)) })

/-- Syscall and Ret complete in every state (44_no_operand.md; 45_stream_decoder.md section 1): a Ret does not end the
stream. -/
def Obligations.NoOperandInstructionsComplete : Prop :=
  ∀ s : State,
    exec .syscall s = .next { s with
      offset := s.offset + 2
      result := some (.stream (some ⟨.syscall, s.base + BitVec.ofNat 64 s.offset⟩)) } ∧
    exec .ret s = .next { s with
      offset := s.offset + 1
      result := some (.stream (some ⟨.ret, s.base + BitVec.ofNat 64 s.offset⟩)) }

/-- The frame of every instruction (10_state.md section 3; 20_memory.md section 4; 45_stream_decoder.md section 1): the base,
the buffer and each of its bytes, the status, every other stream and the sink are unchanged, and a well-formed instruction
moves the cursor by exactly the length of its encoding (the linear sweep). -/
def Obligations.InstructionsChangeOnlyCursorAndResult : Prop :=
  ∀ (i : Instr) (s t : State), exec i s = .next t →
    t.base = s.base ∧ t.buf = s.buf ∧ (∀ k, t.buf.read k = s.buf.read k) ∧ t.status = s.status ∧
    t.others = s.others ∧ t.sink = s.sink ∧ t.freeCount = s.freeCount ∧
    (i.wf = true → t.offset = s.offset + (encode i).length)

/-! ### The stream -/

/-- 45_stream_decoder.md R141: construction writes all four fields of the new stream and not the sink, for every buffer
there is (fewer than 2^64 bytes), the empty one among them. -/
def Obligations.StreamConstructionWritesItsFields : Prop :=
  ∀ (base : Addr) (bytes : List Byte) (s : State), bytes.length < 2 ^ 64 →
    ∃ t, perform (.streamNew base bytes) s = .next t ∧
      t.base = base ∧ t.buf.bytes = bytes ∧ (∀ k, t.buf.read k = bytes[k]?) ∧ t.offset = 0 ∧ t.status = .hasNext ∧
      t.sink = s.sink ∧ t.freeCount = s.freeCount

/-- A longer buffer is refused (decision D3). -/
def Obligations.OverlongBufferIsRefused : Prop :=
  ∀ (base : Addr) (bytes : List Byte) (s : State), 2 ^ 64 ≤ bytes.length →
    perform (.streamNew base bytes) s = .refused (.bufferTooLong bytes.length)

/-- 45_stream_decoder.md R142: the advance step. The address is the sum `base + offset` where that sum is an address; where
it is not, the spec's own decision D2 wraps it (the next statement). -/
def Obligations.StreamNextFollowsItsRule : Prop :=
  ∀ s : State,
    (s.status = .exhausted → step s = .next { s with result := some (.stream none) }) ∧
    (s.status = .hasNext → ∀ (i : Instruction) (n : Nat), Codec.decode (s.buf.bytes.drop s.offset) = .ok (i, n) →
      (∃ p : PositionedInstruction,
        step s = .next { s with offset := s.offset + n, result := some (.stream (some p)) } ∧
        p.instruction = i ∧
        (s.base.toNat + s.offset < 2 ^ 64 → p.address.toNat = s.base.toNat + s.offset)) ∧
      s.offset + n ≤ s.buf.size) ∧
    (s.status = .hasNext → (∀ i n, Codec.decode (s.buf.bytes.drop s.offset) ≠ .ok (i, n)) →
      step s = .next { s with status := .exhausted, result := some (.stream none) })

/-- The address handed out is the base plus the cursor modulo 2^64 (decision D2). -/
def Obligations.HandedOutAddressWraps : Prop :=
  ∀ (s t : State) (p : PositionedInstruction), step s = .next t → t.result = some (.stream (some p)) →
    p.address.toNat = (s.base.toNat + s.offset) % 2 ^ 64

/-- 45_stream_decoder.md R140: two states, one transition into exhausted and none out of it, and every later `stream_next`
answers absent and changes nothing. -/
def Obligations.ExhaustedIsPermanent : Prop :=
  (∀ s t : State, step s = .next t →
    (t.status = .exhausted ↔ s.status = .exhausted ∨ ∀ i n, Codec.decode (s.buf.bytes.drop s.offset) ≠ .ok (i, n))) ∧
  (∀ (s : State) (n : Nat), s.status = .exhausted →
    core.run (n + 1) s = .next { s with result := some (.stream none) })

/-- `stream_next` always completes, in every state and on every stream that exists (70_reset_and_hazards.md section 4;
60_exceptions.md section 5), so no run of a stream stops; on a stream that does not exist it is refused (decision D17). -/
def Obligations.StreamNextAlwaysCompletes : Prop :=
  (∀ s : State, ∃ t, step s = .next t) ∧ (∀ (s : State) (n : Nat), ∃ t, core.run n s = .next t) ∧
  (∀ (s : State) (k : Nat), (∃ t, perform (.streamNext k) s = .next t) ↔ (s.stream k).isSome = true) ∧
  (∀ (s : State) (k : Nat), s.stream k = none → perform (.streamNext k) s = .refused (.noSuchStream k))

/-- A step runs the decoded instruction: where the stream has a next and the bytes from the cursor on decode, the step is
exactly that instruction's meaning, with nothing around it. -/
def Obligations.StepRunsTheDecodedInstruction : Prop :=
  ∀ (s : State) (i : Instr) (n : Nat), s.status = .hasNext → decode (s.buf.bytes.drop s.offset) = some (i, n) →
    step s = exec i s

/-- A step runs the encoded instruction: where the bytes from the cursor on begin with a well-formed instruction's encoding,
the step is that instruction's meaning and passes exactly those bytes. -/
def Obligations.StepRunsTheEncodedInstruction : Prop :=
  ∀ (s : State) (i : Instr) (rest : List Byte), i.wf = true → s.status = .hasNext →
    s.buf.bytes.drop s.offset = encode i ++ rest →
    step s = exec i s ∧ ∃ t, step s = .next t ∧ t.status = .hasNext ∧ t.buf.bytes.drop t.offset = rest

/-- The instruction an opcode-table word decodes to is the one the next step runs once the word is placed at the cursor, in
every state (the loading convention of log entry 1). -/
def Obligations.PlacedWordIsTheNextInstruction : Prop :=
  ∀ (s : State) (nbits w : Nat) (i : Instr), decodeTableWord nbits w = some i →
    step (s.withFetchWord nbits w) = exec i (s.withFetchWord nbits w)

/-- Rows 1 to 5 from their bytes (42_rip_relative.md): what one `stream_next` hands out and where it leaves the cursor. -/
def Obligations.RipRelativeBytesAreHandedOut : Prop :=
  ∀ (s : State) (d0 d1 d2 d3 : Byte) (rest front : List Byte) (i : Instruction) (n : Nat), s.status = .hasNext →
    (front, i, n) ∈
      [([0x48#8, 0x8B#8, 0x05#8], Instruction.mov (.reg .rax) (.int (le32s d0 d1 d2 d3)), 7),
       ([0x48#8, 0x8D#8, 0x0D#8], Instruction.lea (.reg .rcx) (.int (le32s d0 d1 d2 d3)), 7),
       ([0xFF#8, 0x25#8], Instruction.jmp (.int (le32s d0 d1 d2 d3)), 6),
       ([0xFF#8, 0x15#8], Instruction.callIndirect (.int (le32s d0 d1 d2 d3)), 6),
       ([0xE8#8], Instruction.callDirect (.int (le32s d0 d1 d2 d3)), 5)] →
    s.buf.bytes.drop s.offset = front ++ [d0, d1, d2, d3] ++ rest →
    step s = .next { s with
      offset := s.offset + n
      result := some (.stream (some ⟨i, s.base + BitVec.ofNat 64 s.offset⟩)) }

/-- Rows 6 to 12 from their bytes (43_push_pop.md, 44_no_operand.md). -/
def Obligations.PushPopAndNoOperandBytesAreHandedOut : Prop :=
  ∀ (s : State) (rest : List Byte), s.status = .hasNext →
    (∀ ib : Byte, s.buf.bytes.drop s.offset = 0x6A#8 :: ib :: rest →
      step s = .next { s with
        offset := s.offset + 2
        result := some (.stream (some ⟨.push (.int (sext8to32 ib)), s.base + BitVec.ofNat 64 s.offset⟩)) }) ∧
    (∀ (k : BitVec 3) (r : Register), (code r).toNat = k.toNat + 8 →
      (s.buf.bytes.drop s.offset = 0x41#8 :: (0x50#8 + k.setWidth 8) :: rest →
        step s = .next { s with
          offset := s.offset + 2
          result := some (.stream (some ⟨.push (.reg r), s.base + BitVec.ofNat 64 s.offset⟩)) }) ∧
      (s.buf.bytes.drop s.offset = 0x41#8 :: (0x58#8 + k.setWidth 8) :: rest →
        step s = .next { s with
          offset := s.offset + 2
          result := some (.stream (some ⟨.pop (.reg r), s.base + BitVec.ofNat 64 s.offset⟩)) })) ∧
    (∀ (k : BitVec 3) (r : Register), (code r).toNat = k.toNat →
      (s.buf.bytes.drop s.offset = (0x50#8 + k.setWidth 8) :: rest →
        step s = .next { s with
          offset := s.offset + 1
          result := some (.stream (some ⟨.push (.reg r), s.base + BitVec.ofNat 64 s.offset⟩)) }) ∧
      (s.buf.bytes.drop s.offset = (0x58#8 + k.setWidth 8) :: rest →
        step s = .next { s with
          offset := s.offset + 1
          result := some (.stream (some ⟨.pop (.reg r), s.base + BitVec.ofNat 64 s.offset⟩)) })) ∧
    (s.buf.bytes.drop s.offset = 0x0F#8 :: 0x05#8 :: rest →
      step s = .next { s with
        offset := s.offset + 2
        result := some (.stream (some ⟨.syscall, s.base + BitVec.ofNat 64 s.offset⟩)) }) ∧
    (s.buf.bytes.drop s.offset = 0xC3#8 :: rest →
      step s = .next { s with
        offset := s.offset + 1
        result := some (.stream (some ⟨.ret, s.base + BitVec.ofNat 64 s.offset⟩)) })

/-- What a stream hands out and how it moves depend on its own four fields only (20_memory.md section 6; 60_exceptions.md
section 7): neither the sink, nor another stream, nor an earlier result is seen. -/
def Obligations.StreamSeesOnlyItsOwnFields : Prop :=
  ∀ s t s' t' : State, s.base = t.base → s.buf = t.buf → s.offset = t.offset → s.status = t.status →
    step s = .next s' → step t = .next t' →
    s'.base = t'.base ∧ s'.buf = t'.buf ∧ s'.offset = t'.offset ∧ s'.status = t'.status ∧ s'.result = t'.result

/-- 10_state.md section 3, 20_memory.md section 6, 70_reset_and_hazards.md section 1: advancing one stream leaves every other
stream, every stream's base and buffer and the sink as they were, and constructing a stream keeps all streams there were
(each under the next number: the numbers are the model's, log entry 5). -/
def Obligations.StreamsDoNotDisturbEachOther : Prop :=
  (∀ (k : Nat) (s t : State), perform (.streamNext k) s = .next t →
    (∀ j, j ≠ k → t.stream j = s.stream j) ∧ t.sink = s.sink ∧ t.freeCount = s.freeCount ∧
    (∃ a b, s.stream k = some a ∧ t.stream k = some b ∧ b.base = a.base ∧ b.buf = a.buf)) ∧
  (∀ (base : Addr) (bytes : List Byte) (s t : State), perform (.streamNew base bytes) s = .next t →
    ∀ k, t.stream (k + 1) = s.stream k)

/-- 20_memory.md section 6: independent streams may be advanced in any order; both orders hand out the same results and leave
the same streams. -/
def Obligations.AdvancesOfDifferentStreamsCommute : Prop :=
  ∀ (j k : Nat) (s t u t' u' : State), j ≠ k →
    perform (.streamNext j) s = .next t → perform (.streamNext k) t = .next u →
    perform (.streamNext k) s = .next t' → perform (.streamNext j) t' = .next u' →
    (∀ m, u.stream m = u'.stream m) ∧ t.result = u'.result ∧ u.result = t'.result ∧ u.sink = u'.sink

/-! ### Reset and the invariant -/

/-- After reset the stream is at offset 0 with a next instruction to try, and the sink is empty (10_state.md section 5,
70_reset_and_hazards.md section 1; that construction is the block's reset is the spec's own choice). -/
def Obligations.ResetIsAFreshStream : Prop :=
  State.reset.offset = 0 ∧ State.reset.status = .hasNext ∧ State.reset.sink.count = 0 ∧
  State.reset.sink.contents = [] ∧ State.reset.buf.wf = true

/-- The reset state meets the invariant. -/
def Obligations.ResetMeetsTheStreamInvariant : Prop := Inv State.reset

/-- 10_state.md section 3 (derived there): from every state that meets the invariant, a step leads to one that does. -/
def Obligations.StepKeepsTheStreamInvariant : Prop :=
  ∀ s t : State, Inv s → step s = .next t → Inv t

/-- Every operation the block offers keeps the invariant, encode and stream construction among them. -/
def Obligations.RequestsKeepTheStreamInvariant : Prop :=
  ∀ (q : Request) (s t : State), Inv s → perform q s = .next t → Inv t

/-- 00_scope.md section 7, the column "state written": stream_new and stream_next alone write a stream, encode alone writes
the sink. -/
def Obligations.OnlyTheNamedOperationsWriteState : Prop :=
  ∀ (q : Request) (s t : State), perform q s = .next t →
    ((∀ base bytes, q ≠ .streamNew base bytes) → (∀ k, q ≠ .streamNext k) →
      t.toDecodeStream = s.toDecodeStream ∧ t.others = s.others) ∧
    ((∀ i, q ≠ .encode i) → t.sink = s.sink ∧ t.freeCount = s.freeCount)

/-! ### The sink -/

/-- 20_memory.md R44: the order of output bytes. After an encode the sink holds exactly the canonical bytes, byte k in cell k,
and wherever a buffer holds these bytes decode returns the same instruction. -/
def Obligations.EncodeFillsTheSinkInStreamOrder : Prop :=
  ∀ (i : Instruction) (s : State), i.wf = true → ∃ b t, Codec.encode i = .ok b ∧ perform (.encode i) s = .next t ∧
    t.sink.count = b.length ∧ t.sink.contents = b ∧ (∀ (k : Nat) (h : k < 15), k < b.length → some t.sink.cells[k] = b[k]?) ∧
    t.result = some (.encoded b) ∧ t.toDecodeStream = s.toDecodeStream ∧ t.others = s.others ∧
    (∀ (buffer rest : List Byte) (j : Nat), buffer.drop j = b ++ rest → Codec.decode (buffer.drop j) = .ok (i, b.length))

/-- 10_state.md section 4 and 41_codec_operations.md section 3 (derived there; decision D18): a push appends below the
capacity of 15 and is stuck at it, any two encodings fit, and three may not. -/
def Obligations.SinkHoldsTwoEncodingsButMaybeNotThree : Prop :=
  (∀ (k : Sink) (b : Byte), k.count < 15 →
    ∃ k', k.push b = .ok k' ∧ k'.count = k.count + 1 ∧ k'.contents = k.contents ++ [b]) ∧
  (∀ (k : Sink) (b : Byte), 15 ≤ k.count → k.push b = .error .sinkOverflow) ∧
  (∀ (epoch : Nat) (i j : Instruction), i.wf = true → j.wf = true → ∃ k k' b c, encodeInto (Sink.empty epoch) i = .ok k ∧
    encodeInto k j = .ok k' ∧ Codec.encode i = .ok b ∧ Codec.encode j = .ok c ∧ k'.contents = b ++ c) ∧
  (∃ i : Instruction, i.wf = true ∧ ∀ (epoch : Nat) (k k' : Sink), encodeInto (Sink.empty epoch) i = .ok k →
    encodeInto k i = .ok k' → encodeInto k' i = .error .sinkOverflow)

/-! ### Whole streams -/

/-- 45_stream_decoder.md section 1: the instructions a stream yields stand one after the other from BASE on, their addresses
added modulo 2^64 (decision D2, log entry 6). -/
def Obligations.YieldedInstructionsTileTheBuffer : Prop :=
  ∀ (base : Addr) (bytes : List Byte) (s : State), Tiles base (run base bytes s).1

/-- The round-trip law over a whole stream: re-encoding what a stream yields gives the buffer up to the final offset, which is
the sum of the yielded lengths (10_state.md section 3, invariant (b), derived there). -/
def Obligations.ReencodingAStreamGivesItsBuffer : Prop :=
  ∀ (base : Addr) (bytes : List Byte) (s : State),
    reencode (run base bytes s).1 = .ok (bytes.take (run base bytes s).2.offset) ∧
    totalLength (run base bytes s).1 = .ok (run base bytes s).2.offset

/-- A stream over N bytes yields at most N instructions and then is exhausted, standing in the buffer at bytes that match no
pattern (45_stream_decoder.md section 1, derived there). -/
def Obligations.EveryStreamEndsWithinItsBuffer : Prop :=
  ∀ (base : Addr) (bytes : List Byte) (s : State),
    (run base bytes s).1.length ≤ bytes.length ∧ (run base bytes s).2.status = .exhausted ∧
    (run base bytes s).2.offset ≤ bytes.length ∧ decode (bytes.drop (run base bytes s).2.offset) = none

/-- A buffer built by encode decodes to what it was built from: a stream over the encodings of any list of well-formed
instructions yields exactly these, each at its address (added modulo 2^64: decision D2, log entry 6), and ends at the end of
the buffer (the converse law of 41_codec_operations.md section 4, derived there, over whole streams). -/
def Obligations.StreamOverEncodedProgramYieldsIt : Prop :=
  ∀ (base : Addr) (is : List Instr) (s : State), (∀ i ∈ is, i.wf = true) →
    (run base (is.flatMap encode) s).1 = placeFrom base is ∧
    (run base (is.flatMap encode) s).2.offset = (is.flatMap encode).length ∧
    (run base (is.flatMap encode) s).2.status = .exhausted

/-- The lengths yielded add up to N exactly when the stream ended on the empty remainder (45_stream_decoder.md section 1;
decision D22). -/
def Obligations.LengthsAddUpToNExactlyAtTheBufferEnd : Prop :=
  ∀ (base : Addr) (bytes : List Byte) (s : State),
    totalLength (run base bytes s).1 = .ok bytes.length ↔ bytes.drop (run base bytes s).2.offset = []

/-- Constructing a stream over the rest of the buffer, with BASE moved by the bytes passed, continues where the stream stood
after any number of calls (45_stream_decoder.md section 1, derived there; the moved BASE adds modulo 2^64: decision D2, log
entry 6). -/
def Obligations.LaterSliceContinuesTheStream : Prop :=
  ∀ (base : Addr) (bytes : List Byte) (s t : State) (ps : List PositionedInstruction) (k : Nat),
    collect k (construct base bytes s) = (ps, t) →
    (run base bytes s).1 = ps ++ (run (base + BitVec.ofNat 64 t.offset) (bytes.drop t.offset) s).1

/-- The base address shifts the addresses a stream yields and nothing else (10_state.md section 1: no external context enters
an instruction; sums wrap by decision D2, log entry 6). -/
def Obligations.BaseOnlyShiftsTheAddresses : Prop :=
  ∀ (base shift : Addr) (bytes : List Byte) (s : State),
    (run (base + shift) bytes s).1 =
      (run base bytes s).1.map (fun p => { p with address := p.address + shift }) ∧
    (run (base + shift) bytes s).2.offset = (run base bytes s).2.offset

/-! ### The spec's own words and examples -/

/-- 45_stream_decoder.md R147: the worked example of a stream. -/
def Obligations.SourceStreamExample : Prop :=
  ∀ s : State,
    (run 0x1000#64 [0x50#8, 0xFF#8, 0x15#8, 0x69#8, 0x69#8, 0x69#8, 0x69#8, 0x58#8, 0xC3#8] s).1 =
      [⟨.push (.reg .rax), 0x1000#64⟩, ⟨.callIndirect (.int 0x69696969#32), 0x1001#64⟩, ⟨.pop (.reg .rax), 0x1007#64⟩,
        ⟨.ret, 0x1008#64⟩] ∧
    (run 0x1000#64 [0x50#8, 0xFF#8, 0x15#8, 0x69#8, 0x69#8, 0x69#8, 0x69#8, 0x58#8, 0xC3#8] s).2.offset = 9 ∧
    (run 0x1000#64 [0x50#8, 0xFF#8, 0x15#8, 0x69#8, 0x69#8, 0x69#8, 0x69#8, 0x58#8, 0xC3#8] s).2.status = .exhausted

/-- Words written out from the encodings of 30_encoding.md, one of each family, decode to the instruction they stand for
(95_test_vectors.md sections 1 and 2). -/
def Obligations.WrittenOutWordsDecode : Prop :=
  decode [0x48#8, 0x8B#8, 0x05#8, 0x78#8, 0x56#8, 0x34#8, 0x12#8] = some (.mov 305419896#32, 7) ∧
  decode [0xFF#8, 0x25#8, 0x00#8, 0x00#8, 0x00#8, 0x80#8] = some (.jmp (BitVec.ofInt 32 (-2147483648)), 6) ∧
  decode [0x6A#8, 0x80#8] = some (.pushImm8 (BitVec.ofInt 32 (-128)), 2) ∧
  decode [0x41#8, 0x5F#8] = some (.popRext .r15, 2) ∧
  decode [0x57#8] = some (.pushRbase .rdi, 1) ∧
  decode [0x0F#8, 0x05#8] = some (.syscall, 2) ∧
  decode [0x0F#8, 0x0B#8] = none
end

