-- ==== Sys2Proof/Laws/Bytes.lean ====
section
/-! SUPPORT. The conversions between bytes and numbers undo each other (spec/41_codec_operations.md R102), and the register
field of an opcode byte is what the encoder put there. -/

namespace Sys2Proof.Laws

@[simp] theorem le32_length (v : I32) : (le32 v).length = 4 := rfl

theorem lo8_toNat (v : I32) : (lo8 v).toNat = v.toNat % 256 := by
  simp [lo8]

theorem lo8_sshiftRight_toNat (v : I32) (k : Nat) (h : k + 8 ≤ 32) :
    (lo8 (v.sshiftRight k)).toNat = v.toNat / 2 ^ k % 256 := by
  have : lo8 (v.sshiftRight k) = (v >>> k).setWidth 8 := by
    apply BitVec.eq_of_getLsbD_eq
    intro i hi
    simp only [lo8, BitVec.getLsbD_setWidth, BitVec.getLsbD_sshiftRight, BitVec.getLsbD_ushiftRight]
    have h32 : i < 32 := by omega
    have hk : k + i < 32 := by omega
    simp [hi, hk, Nat.not_le.mpr h32]
  rw [this]
  simp [Nat.shiftRight_eq_div_pow]

theorem le32s_toNat (b0 b1 b2 b3 : Byte) :
    (le32s b0 b1 b2 b3).toNat = b0.toNat + 256 * b1.toNat + 65536 * b2.toNat + 16777216 * b3.toNat := by
  have h0 := b0.isLt; have h1 := b1.isLt; have h2 := b2.isLt; have h3 := b3.isLt
  simp only [le32s, BitVec.toNat_ofNat]
  omega

/-- `le32(le32s(b0, b1, b2, b3)) = [b0, b1, b2, b3]` (R100). -/
theorem le32_le32s (b0 b1 b2 b3 : Byte) : le32 (le32s b0 b1 b2 b3) = [b0, b1, b2, b3] := by
  have h0 := b0.isLt; have h1 := b1.isLt; have h2 := b2.isLt; have h3 := b3.isLt
  have e := le32s_toNat b0 b1 b2 b3
  simp only [le32, List.cons.injEq, and_true]
  refine ⟨?_, ?_, ?_, ?_⟩ <;> apply BitVec.eq_of_toNat_eq
  · rw [lo8_toNat, e]; omega
  · rw [lo8_sshiftRight_toNat _ _ (by omega), e]; omega
  · rw [lo8_sshiftRight_toNat _ _ (by omega), e]; omega
  · rw [lo8_sshiftRight_toNat _ _ (by omega), e]; omega

/-- The four bytes of `le32(v)` assemble to `v` again. -/
theorem le32s_le32 (v : I32) :
    le32s (lo8 v) (lo8 (v.sshiftRight 8)) (lo8 (v.sshiftRight 16)) (lo8 (v.sshiftRight 24)) = v := by
  have hv := v.isLt
  apply BitVec.eq_of_toNat_eq
  rw [le32s_toNat, lo8_toNat, lo8_sshiftRight_toNat _ _ (by omega), lo8_sshiftRight_toNat _ _ (by omega),
    lo8_sshiftRight_toNat _ _ (by omega)]
  omega

/-- `sext8to32(b)` is `b` if `b < 128`, else `b - 256` (00_scope.md R6). -/
theorem sext8to32_toInt (b : Byte) :
    (sext8to32 b).toInt = if b.toNat < 128 then (b.toNat : Int) else (b.toNat : Int) - 256 := by
  have hb := b.isLt
  rw [sext8to32, BitVec.toInt_signExtend_of_le (by omega), BitVec.toInt_eq_toNat_cond]
  split <;> split <;> omega

theorem fitsImm8_iff (v : I32) : fitsImm8 v = true ↔ -128 ≤ v.toInt ∧ v.toInt ≤ 127 := by
  simp [fitsImm8]

theorem fitsImm8_sext8to32 (b : Byte) : fitsImm8 (sext8to32 b) = true := by
  have hb := b.isLt
  rw [fitsImm8_iff, sext8to32_toInt]
  split <;> omega

/-- `lo8(sext8to32(b)) = b` (R100). -/
theorem lo8_sext8to32 (b : Byte) : lo8 (sext8to32 b) = b := by
  revert b; decide

/-- The immediate byte carries every value it fits. -/
theorem sext8to32_lo8 (v : I32) (h : fitsImm8 v = true) : sext8to32 (lo8 v) = v := by
  have hv := v.isLt
  rw [fitsImm8_iff] at h
  apply BitVec.eq_of_toInt_eq
  rw [sext8to32_toInt, lo8_toNat]
  rw [BitVec.toInt_eq_toNat_cond] at h ⊢
  split at h <;> split <;> omega

theorem registerField_opcode (r : Register) :
    registerField (opcodePlusReg 0x50#8 r) = baseBits r ∧ registerField (opcodePlusReg 0x58#8 r) = baseBits r := by
  cases r <;> decide

theorem opcode_range (r : Register) :
    (0x50#8 ≤ opcodePlusReg 0x50#8 r ∧ opcodePlusReg 0x50#8 r ≤ 0x57#8) ∧
      (0x58#8 ≤ opcodePlusReg 0x58#8 r ∧ opcodePlusReg 0x58#8 r ≤ 0x5F#8) := by
  cases r <;> decide

theorem regFromBaseBits_baseBits (r : Register) : regFromBaseBits (baseBits r) (isExtended r) = r := by
  cases r <;> rfl

theorem isExtended_regFromBaseBits (bits : BitVec 3) (ext : Bool) : isExtended (regFromBaseBits bits ext) = ext := by
  revert bits ext; decide

theorem baseBits_regFromBaseBits (bits : BitVec 3) (ext : Bool) : baseBits (regFromBaseBits bits ext) = bits := by
  revert bits ext; decide

/-- `0x50 + (rb & 0b0111) = rb` for rb in `[0x50, 0x57]` (R100). -/
theorem opcodePlusReg_push (rb : Byte) (ext : Bool) (h : 0x50#8 ≤ rb ∧ rb ≤ 0x57#8) :
    opcodePlusReg 0x50#8 (regFromBaseBits (registerField rb) ext) = rb := by
  revert h rb ext; decide

/-- `0x58 + (rb & 0b0111) = rb` for rb in `[0x58, 0x5F]` (R100). -/
theorem opcodePlusReg_pop (rb : Byte) (ext : Bool) (h : 0x58#8 ≤ rb ∧ rb ≤ 0x5F#8) :
    opcodePlusReg 0x58#8 (regFromBaseBits (registerField rb) ext) = rb := by
  revert h rb ext; decide

end Sys2Proof.Laws
end

