-- ==== Sys2Proof/Laws/Decode.lean ====
section
/-! SUPPORT. What the decoder does, said once: the shapes of input it accepts and what it answers for each
(spec/41_codec_operations.md R90). -/

namespace Sys2Proof.Laws

theorem matchesPattern_nil (w : List Byte) : matchesPattern [] w = true := by cases w <;> rfl

theorem matchesPattern_cons (t : ByteTest) (ts : List ByteTest) (w : List Byte) :
    matchesPattern (t :: ts) w = true ↔ ∃ b u, w = b :: u ∧ t.accepts b = true ∧ matchesPattern ts u = true := by
  cases w with
  | nil => simp [matchesPattern]
  | cons b u => simp [matchesPattern]

@[simp] theorem accepts_literal (b x : Byte) : (ByteTest.literal b).accepts x = true ↔ x = b := by
  simp [ByteTest.accepts]

@[simp] theorem accepts_range (lo hi x : Byte) : (ByteTest.range lo hi).accepts x = true ↔ lo ≤ x ∧ x ≤ hi := by
  simp [ByteTest.accepts]

@[simp] theorem accepts_payload (x : Byte) : ByteTest.payload.accepts x = true := rfl

theorem disp32Tests_match (w : List Byte) :
    matchesPattern disp32Tests w = true ↔ ∃ d0 d1 d2 d3 t, w = d0 :: d1 :: d2 :: d3 :: t := by
  rcases w with _ | ⟨a, _ | ⟨b, _ | ⟨c, _ | ⟨d, t⟩⟩⟩⟩ <;> simp [disp32Tests, matchesPattern, ByteTest.accepts]

/-- The shapes of input the decoder accepts, with the instruction and the consumed length of each. -/
inductive Decodes : List Byte → Instr → Nat → Prop
  | mov (d0 d1 d2 d3 : Byte) (t : List Byte) :
      Decodes (0x48#8 :: 0x8B#8 :: 0x05#8 :: d0 :: d1 :: d2 :: d3 :: t) (.mov (le32s d0 d1 d2 d3)) 7
  | lea (d0 d1 d2 d3 : Byte) (t : List Byte) :
      Decodes (0x48#8 :: 0x8D#8 :: 0x0D#8 :: d0 :: d1 :: d2 :: d3 :: t) (.lea (le32s d0 d1 d2 d3)) 7
  | jmp (d0 d1 d2 d3 : Byte) (t : List Byte) :
      Decodes (0xFF#8 :: 0x25#8 :: d0 :: d1 :: d2 :: d3 :: t) (.jmp (le32s d0 d1 d2 d3)) 6
  | callIndirect (d0 d1 d2 d3 : Byte) (t : List Byte) :
      Decodes (0xFF#8 :: 0x15#8 :: d0 :: d1 :: d2 :: d3 :: t) (.callIndirect (le32s d0 d1 d2 d3)) 6
  | callDirect (d0 d1 d2 d3 : Byte) (t : List Byte) :
      Decodes (0xE8#8 :: d0 :: d1 :: d2 :: d3 :: t) (.callDirect (le32s d0 d1 d2 d3)) 5
  | pushImm8 (ib : Byte) (t : List Byte) : Decodes (0x6A#8 :: ib :: t) (.pushImm8 (sext8to32 ib)) 2
  | syscall (t : List Byte) : Decodes (0x0F#8 :: 0x05#8 :: t) .syscall 2
  | pushRext (rb : Byte) (t : List Byte) (h : 0x50#8 ≤ rb ∧ rb ≤ 0x57#8) :
      Decodes (0x41#8 :: rb :: t) (.pushRext (regFromBaseBits (registerField rb) true)) 2
  | popRext (rb : Byte) (t : List Byte) (h : 0x58#8 ≤ rb ∧ rb ≤ 0x5F#8) :
      Decodes (0x41#8 :: rb :: t) (.popRext (regFromBaseBits (registerField rb) true)) 2
  | ret (t : List Byte) : Decodes (0xC3#8 :: t) .ret 1
  | pushRbase (rb : Byte) (t : List Byte) (h : 0x50#8 ≤ rb ∧ rb ≤ 0x57#8) :
      Decodes (rb :: t) (.pushRbase (regFromBaseBits (registerField rb) false)) 1
  | popRbase (rb : Byte) (t : List Byte) (h : 0x58#8 ≤ rb ∧ rb ≤ 0x5F#8) :
      Decodes (rb :: t) (.popRbase (regFromBaseBits (registerField rb) false)) 1

/-- A row that matches reads its instruction from one of the accepted shapes. -/
theorem Decodes.of_matches (r : Row) (w : List Byte) (h : r.matches w = true) : Decodes w (r.read w) r.length := by
  cases r <;>
    simp only [Row.matches, Row.pattern, List.cons_append, List.nil_append, matchesPattern_cons, accepts_literal,
      accepts_range, accepts_payload, disp32Tests_match, matchesPattern_nil, and_true, rexW, rexB] at h
  case mov =>
    obtain ⟨_, _, rfl, rfl, _, _, rfl, rfl, _, _, rfl, rfl, d0, d1, d2, d3, t, rfl⟩ := h
    exact .mov d0 d1 d2 d3 t
  case lea =>
    obtain ⟨_, _, rfl, rfl, _, _, rfl, rfl, _, _, rfl, rfl, d0, d1, d2, d3, t, rfl⟩ := h
    exact .lea d0 d1 d2 d3 t
  case jmp =>
    obtain ⟨_, _, rfl, rfl, _, _, rfl, rfl, d0, d1, d2, d3, t, rfl⟩ := h
    exact .jmp d0 d1 d2 d3 t
  case callIndirect =>
    obtain ⟨_, _, rfl, rfl, _, _, rfl, rfl, d0, d1, d2, d3, t, rfl⟩ := h
    exact .callIndirect d0 d1 d2 d3 t
  case callDirect =>
    obtain ⟨_, _, rfl, rfl, d0, d1, d2, d3, t, rfl⟩ := h
    exact .callDirect d0 d1 d2 d3 t
  case pushImm8 =>
    obtain ⟨_, _, rfl, rfl, ib, t, rfl⟩ := h
    exact .pushImm8 ib t
  case syscall =>
    obtain ⟨_, _, rfl, rfl, _, t, rfl, rfl⟩ := h
    exact .syscall t
  case pushRext =>
    obtain ⟨_, _, rfl, rfl, rb, t, rfl, hr⟩ := h
    exact .pushRext rb t hr
  case popRext =>
    obtain ⟨_, _, rfl, rfl, rb, t, rfl, hr⟩ := h
    exact .popRext rb t hr
  case ret =>
    obtain ⟨_, t, rfl, rfl⟩ := h
    exact .ret t
  case pushRbase =>
    obtain ⟨rb, t, rfl, hr⟩ := h
    exact .pushRbase rb t hr
  case popRbase =>
    obtain ⟨rb, t, rfl, hr⟩ := h
    exact .popRbase rb t hr

/-- Everything the decoder can answer. -/
theorem decodes_of_decode {w : List Byte} {i : Instr} {n : Nat} (h : decode w = some (i, n)) : Decodes w i n := by
  simp only [decode, Option.map_eq_some_iff, Prod.mk.injEq] at h
  obtain ⟨r, hr, rfl, rfl⟩ := h
  exact Decodes.of_matches r w (by simpa using List.find?_some hr)

theorem decode_pushRbase (rb : Byte) (t : List Byte) (h : 0x50#8 ≤ rb ∧ rb ≤ 0x57#8) :
    decode (rb :: t) = some (.pushRbase (regFromBaseBits (registerField rb) false), 1) := by
  have key : ∀ rb : Byte, 0x50#8 ≤ rb ∧ rb ≤ 0x57#8 → rb = 0x50#8 ∨ rb = 0x51#8 ∨ rb = 0x52#8 ∨ rb = 0x53#8 ∨
      rb = 0x54#8 ∨ rb = 0x55#8 ∨ rb = 0x56#8 ∨ rb = 0x57#8 := by decide
  rcases key rb h with rfl | rfl | rfl | rfl | rfl | rfl | rfl | rfl <;> rfl

theorem decode_popRbase (rb : Byte) (t : List Byte) (h : 0x58#8 ≤ rb ∧ rb ≤ 0x5F#8) :
    decode (rb :: t) = some (.popRbase (regFromBaseBits (registerField rb) false), 1) := by
  have key : ∀ rb : Byte, 0x58#8 ≤ rb ∧ rb ≤ 0x5F#8 → rb = 0x58#8 ∨ rb = 0x59#8 ∨ rb = 0x5A#8 ∨ rb = 0x5B#8 ∨
      rb = 0x5C#8 ∨ rb = 0x5D#8 ∨ rb = 0x5E#8 ∨ rb = 0x5F#8 := by decide
  rcases key rb h with rfl | rfl | rfl | rfl | rfl | rfl | rfl | rfl <;> rfl

theorem decode_pushRext (rb : Byte) (t : List Byte) (h : 0x50#8 ≤ rb ∧ rb ≤ 0x57#8) :
    decode (0x41#8 :: rb :: t) = some (.pushRext (regFromBaseBits (registerField rb) true), 2) := by
  have key : ∀ rb : Byte, 0x50#8 ≤ rb ∧ rb ≤ 0x57#8 → rb = 0x50#8 ∨ rb = 0x51#8 ∨ rb = 0x52#8 ∨ rb = 0x53#8 ∨
      rb = 0x54#8 ∨ rb = 0x55#8 ∨ rb = 0x56#8 ∨ rb = 0x57#8 := by decide
  rcases key rb h with rfl | rfl | rfl | rfl | rfl | rfl | rfl | rfl <;> rfl

theorem decode_popRext (rb : Byte) (t : List Byte) (h : 0x58#8 ≤ rb ∧ rb ≤ 0x5F#8) :
    decode (0x41#8 :: rb :: t) = some (.popRext (regFromBaseBits (registerField rb) true), 2) := by
  have key : ∀ rb : Byte, 0x58#8 ≤ rb ∧ rb ≤ 0x5F#8 → rb = 0x58#8 ∨ rb = 0x59#8 ∨ rb = 0x5A#8 ∨ rb = 0x5B#8 ∨
      rb = 0x5C#8 ∨ rb = 0x5D#8 ∨ rb = 0x5E#8 ∨ rb = 0x5F#8 := by decide
  rcases key rb h with rfl | rfl | rfl | rfl | rfl | rfl | rfl | rfl <;> rfl

/-- The decoder accepts each of these shapes. -/
theorem Decodes.decode {w : List Byte} {i : Instr} {n : Nat} (h : Decodes w i n) : Sys2Proof.decode w = some (i, n) := by
  cases h with
  | pushRext rb t h => exact decode_pushRext rb t h
  | popRext rb t h => exact decode_popRext rb t h
  | pushRbase rb t h => exact decode_pushRbase rb t h
  | popRbase rb t h => exact decode_popRbase rb t h
  | _ => rfl

/-- Every answer consumes at least one and at most seven bytes, all of them present. -/
theorem Decodes.bounds {w : List Byte} {i : Instr} {n : Nat} (h : Decodes w i n) : 1 ≤ n ∧ n ≤ 7 ∧ n ≤ w.length := by
  cases h <;> simp

/-- The length the codec computes from the value is the number of bytes consumed. -/
theorem Decodes.length_value {w : List Byte} {i : Instr} {n : Nat} (h : Decodes w i n) :
    Codec.length i.value = .ok n := by
  cases h with
  | pushRext rb t h => exact congrArg (fun e => Except.ok (if e then 2 else 1)) (isExtended_regFromBaseBits _ true)
  | popRext rb t h => exact congrArg (fun e => Except.ok (if e then 2 else 1)) (isExtended_regFromBaseBits _ true)
  | pushRbase rb t h => exact congrArg (fun e => Except.ok (if e then 2 else 1)) (isExtended_regFromBaseBits _ false)
  | popRbase rb t h => exact congrArg (fun e => Except.ok (if e then 2 else 1)) (isExtended_regFromBaseBits _ false)
  | _ => rfl

/-- The tagged value of a well-formed instruction has a canonical row, and it is that instruction. -/
theorem canonical_value (i : Instr) (h : i.wf = true) : Codec.canonical i.value = some i := by
  cases i <;> simp_all [Instr.wf, Instr.value, Codec.canonical]

/-- The canonical row of a tagged value stands for that value and is well-formed. -/
theorem value_canonical {v : Instruction} {i : Instr} (h : Codec.canonical v = some i) : i.value = v ∧ i.wf = true := by
  unfold Codec.canonical at h
  split at h
  all_goals try split at h
  all_goals cases h
  all_goals simp_all [Instr.value, Instr.wf]

/-- What the codec's decode answers, in terms of the rows. -/
theorem codec_decode_ok {w : List Byte} {v : Instruction} {n : Nat} :
    Codec.decode w = .ok (v, n) ↔ ∃ i : Instr, decode w = some (i, n) ∧ i.value = v := by
  unfold Codec.decode
  cases h : decode w with
  | none => simp
  | some p => simp [and_comm, Prod.ext_iff]

/-- What the codec's encode answers, in terms of the rows. -/
theorem codec_encode_ok {v : Instruction} {b : List Byte} :
    Codec.encode v = .ok b ↔ ∃ i, Codec.canonical v = some i ∧ encode i = b := by
  unfold Codec.encode
  cases Codec.canonical v <;> simp

end Sys2Proof.Laws
end

