-- ==== Sys2Proof/Laws/Memory.lean ====
section
/-! SUPPORT. The buffer: every operation that makes one makes it canonical, and reading an index of a canonical buffer reads
that byte of its sequence. -/

namespace Sys2Proof.Laws

open Sys2Proof.Machine

@[simp] theorem bytes_ofBytes (bytes : List Byte) : (Memory.ofBytes bytes).bytes = bytes := by
  simp [Memory.bytes, Memory.ofBytes, List.map_snd_zip]

@[simp] theorem size_ofBytes (bytes : List Byte) : (Memory.ofBytes bytes).size = bytes.length := by
  simp [Memory.size, Memory.ofBytes]

theorem length_bytes (m : Memory) : m.bytes.length = m.size := by
  simp [Memory.bytes, Memory.size]

/-- A buffer made from a byte sequence is canonical. -/
@[simp] theorem ofBytes_wf (bytes : List Byte) : (Memory.ofBytes bytes).wf = true := by
  simp [Memory.wf, Memory.ofBytes, List.map_fst_zip]

/-- A buffer with bytes placed into it is canonical. -/
@[simp] theorem place_wf (m : Memory) (k : Nat) (bytes : List Byte) : (m.place k bytes).wf = true :=
  ofBytes_wf _

/-- A canonical buffer is the buffer made from its own byte sequence: equal contents are equal data. -/
theorem ofBytes_bytes (m : Memory) (h : m.wf = true) : Memory.ofBytes m.bytes = m := by
  have h' : m.map Prod.fst = List.range m.length := by simpa [Memory.wf] using h
  have hl : m.bytes.length = m.length := by simp [Memory.bytes]
  rw [Memory.ofBytes, hl, ← h', Memory.bytes]
  exact List.zip_map'.trans (by simp)

theorem find_index_zip (bytes : List Byte) (k j : Nat) :
    (((List.range' j bytes.length).zip bytes).find? fun c => c.1 == j + k).map Prod.snd = bytes[k]? := by
  induction bytes generalizing j k with
  | nil => simp
  | cons b bs ih =>
    rw [List.length_cons, List.range'_succ, List.zip_cons_cons, List.find?_cons]
    cases k with
    | zero => simp
    | succ k =>
      have hne : (j == j + (k + 1)) = false := by simp
      simp only [hne]
      have := ih k (j + 1)
      rw [show j + 1 + k = j + (k + 1) by omega] at this
      simpa using this

/-- A canonical buffer answers the byte at each index below N and no byte from N on (20_memory.md R35). -/
theorem read_eq (m : Memory) (h : m.wf = true) (k : Nat) : m.read k = m.bytes[k]? := by
  have hz := find_index_zip m.bytes k 0
  rw [← List.range_eq_range', Nat.zero_add] at hz
  have hm : (List.range m.bytes.length).zip m.bytes = m := ofBytes_bytes m h
  rw [hm] at hz
  rw [← hz, Memory.read]
  cases m.find? fun c => c.1 == k <;> rfl

/-- The placed bytes are what the slice at that index begins with. -/
theorem slice_place (m : Memory) (k : Nat) (bytes : List Byte) :
    (m.place k bytes).slice k = bytes ++ m.bytes.drop (k + bytes.length) := by
  have hl : (m.bytes.take k ++ List.replicate (k - m.size) 0#8).length = k := by
    simp [length_bytes]
    omega
  rw [Memory.slice, Memory.place, bytes_ofBytes, List.append_assoc]
  exact List.drop_left' hl

end Sys2Proof.Laws
end

