-- ==== Sys2Proof/Laws/PerInstr.lean ====
section
/-! SUPPORT. Facts about every instruction as syntax, one lemma for each constructor. Family EncodedBytesMatchRow: the encoding
of a well-formed instruction has its row's length and passes its row's pattern, whatever bytes follow. -/

namespace Sys2Proof.Laws.EncodedBytesMatchRow

/-- What the family says of one instruction. -/
def Statement (i : Instr) : Prop :=
  i.wf = true → (encode i).length = i.row.length ∧ ∀ t, i.row.matches (encode i ++ t) = true

theorem mov (d : I32) : Statement (.mov d) := fun _ => ⟨rfl, fun _ => rfl⟩
theorem lea (d : I32) : Statement (.lea d) := fun _ => ⟨rfl, fun _ => rfl⟩
theorem jmp (d : I32) : Statement (.jmp d) := fun _ => ⟨rfl, fun _ => rfl⟩
theorem callIndirect (d : I32) : Statement (.callIndirect d) := fun _ => ⟨rfl, fun _ => rfl⟩
theorem callDirect (d : I32) : Statement (.callDirect d) := fun _ => ⟨rfl, fun _ => rfl⟩
theorem pushImm8 (v : I32) : Statement (.pushImm8 v) := fun _ => ⟨rfl, fun _ => rfl⟩
theorem syscall : Statement .syscall := fun _ => ⟨rfl, fun _ => rfl⟩
theorem ret : Statement .ret := fun _ => ⟨rfl, fun _ => rfl⟩

theorem pushRext (r : Register) : Statement (.pushRext r) := by
  intro _
  refine ⟨rfl, fun t => ?_⟩
  simp [Row.matches, Instr.row, Row.pattern, matchesPattern, encode, (opcode_range r).1, rexB]

theorem popRext (r : Register) : Statement (.popRext r) := by
  intro _
  refine ⟨rfl, fun t => ?_⟩
  simp [Row.matches, Instr.row, Row.pattern, matchesPattern, encode, (opcode_range r).2, rexB]

theorem pushRbase (r : Register) : Statement (.pushRbase r) := by
  intro _
  refine ⟨rfl, fun t => ?_⟩
  simp [Row.matches, Instr.row, Row.pattern, matchesPattern, encode, (opcode_range r).1]

theorem popRbase (r : Register) : Statement (.popRbase r) := by
  intro _
  refine ⟨rfl, fun t => ?_⟩
  simp [Row.matches, Instr.row, Row.pattern, matchesPattern, encode, (opcode_range r).2]

end Sys2Proof.Laws.EncodedBytesMatchRow
end

