-- ==== Sys2Proof/Laws/State.lean ====
section
/-! SUPPORT. What each update of the state leaves in each field, true by definition. -/

namespace Sys2Proof.Laws

open Sys2Proof.Machine

variable (s : State) (base : Addr) (bytes : List Byte) (nbits w : Nat)

@[simp] theorem endStream_base : (endStream s).base = s.base := rfl
@[simp] theorem endStream_buf : (endStream s).buf = s.buf := rfl
@[simp] theorem endStream_offset : (endStream s).offset = s.offset := rfl
@[simp] theorem endStream_status : (endStream s).status = .exhausted := rfl
@[simp] theorem endStream_others : (endStream s).others = s.others := rfl
@[simp] theorem endStream_sink : (endStream s).sink = s.sink := rfl
@[simp] theorem endStream_result : (endStream s).result = some (.stream none) := rfl
@[simp] theorem endStream_freeCount : (endStream s).freeCount = s.freeCount := rfl

@[simp] theorem stayExhausted_base : (stayExhausted s).base = s.base := rfl
@[simp] theorem stayExhausted_buf : (stayExhausted s).buf = s.buf := rfl
@[simp] theorem stayExhausted_offset : (stayExhausted s).offset = s.offset := rfl
@[simp] theorem stayExhausted_status : (stayExhausted s).status = s.status := rfl
@[simp] theorem stayExhausted_others : (stayExhausted s).others = s.others := rfl
@[simp] theorem stayExhausted_sink : (stayExhausted s).sink = s.sink := rfl
@[simp] theorem stayExhausted_result : (stayExhausted s).result = some (.stream none) := rfl
@[simp] theorem stayExhausted_freeCount : (stayExhausted s).freeCount = s.freeCount := rfl

@[simp] theorem construct_base : (construct base bytes s).base = base := rfl
@[simp] theorem construct_buf : (construct base bytes s).buf = Memory.ofBytes bytes := rfl
@[simp] theorem construct_offset : (construct base bytes s).offset = 0 := rfl
@[simp] theorem construct_status : (construct base bytes s).status = .hasNext := rfl
@[simp] theorem construct_others : (construct base bytes s).others = s.toDecodeStream :: s.others := rfl
@[simp] theorem construct_sink : (construct base bytes s).sink = s.sink := rfl
@[simp] theorem construct_result : (construct base bytes s).result = some .constructed := rfl
@[simp] theorem construct_freeCount : (construct base bytes s).freeCount = s.freeCount := rfl

@[simp] theorem withFetchWord_base : (s.withFetchWord nbits w).base = s.base := rfl
@[simp] theorem withFetchWord_buf :
    (s.withFetchWord nbits w).buf = s.buf.place s.offset (tableBytes nbits w) := rfl
@[simp] theorem withFetchWord_offset : (s.withFetchWord nbits w).offset = s.offset := rfl
@[simp] theorem withFetchWord_status : (s.withFetchWord nbits w).status = .hasNext := rfl
@[simp] theorem withFetchWord_others : (s.withFetchWord nbits w).others = s.others := rfl
@[simp] theorem withFetchWord_sink : (s.withFetchWord nbits w).sink = s.sink := rfl
@[simp] theorem withFetchWord_result : (s.withFetchWord nbits w).result = s.result := rfl
@[simp] theorem withFetchWord_freeCount : (s.withFetchWord nbits w).freeCount = s.freeCount := rfl

/-- The state after an instruction value of length `n` is handed out. -/
def advanced (i : Instruction) (n : Nat) (s : State) : State :=
  { s with
    offset := s.offset + n
    result := some (.stream (some { instruction := i, address := s.ip })) }

variable (i : Instruction) (n : Nat)

@[simp] theorem advanced_base : (advanced i n s).base = s.base := rfl
@[simp] theorem advanced_buf : (advanced i n s).buf = s.buf := rfl
@[simp] theorem advanced_offset : (advanced i n s).offset = s.offset + n := rfl
@[simp] theorem advanced_status : (advanced i n s).status = s.status := rfl
@[simp] theorem advanced_others : (advanced i n s).others = s.others := rfl
@[simp] theorem advanced_sink : (advanced i n s).sink = s.sink := rfl
@[simp] theorem advanced_freeCount : (advanced i n s).freeCount = s.freeCount := rfl
@[simp] theorem advanced_yielded :
    (advanced i n s).yielded = some { instruction := i, address := s.ip } := rfl

@[simp] theorem endStream_yielded : (endStream s).yielded = none := rfl
@[simp] theorem stayExhausted_yielded : (stayExhausted s).yielded = none := rfl

end Sys2Proof.Laws
end

