-- ==== Sys2Proof/Laws/Step.lean ====
section
/-! SUPPORT. What a meaning and a step can do, said once. -/

namespace Sys2Proof.Laws

open Sys2Proof.Machine

/-- A value that has a length is handed out and passed. -/
theorem deliver_of_length {i : Instruction} {n : Nat} (h : Codec.length i = .ok n) (s : State) :
    deliver i s = .next (advanced i n s) := by
  simp [deliver, h, advanced]

/-- Every instruction's meaning hands out its tagged value. -/
theorem exec_eq_deliver (i : Instr) (s : State) : exec i s = deliver i.value s := by
  cases i <;> rfl

/-- An instruction that was decoded is handed out and passed by the number of bytes it consumed. -/
theorem exec_of_decodes {w : List Byte} {i : Instr} {n : Nat} (h : Decodes w i n) (s : State) :
    exec i s = .next (advanced i.value n s) := by
  rw [exec_eq_deliver, deliver_of_length h.length_value]

/-- Everything a step can do: stay exhausted, hand out the instruction the bytes at the cursor spell, or end the stream. -/
theorem step_cases (s : State) :
    (s.status = .exhausted ∧ step s = .next (stayExhausted s)) ∨
    (∃ i n, s.status = .hasNext ∧ s.fetch = some (i, n) ∧ step s = exec i s ∧
      step s = .next (advanced i.value n s)) ∨
    (s.status = .hasNext ∧ s.fetch = none ∧ step s = .next (endStream s)) := by
  cases hs : s.status with
  | exhausted => exact .inl ⟨rfl, by simp [step, hs]⟩
  | hasNext =>
    cases hf : s.fetch with
    | none => exact .inr (.inr ⟨rfl, rfl, by simp [step, hs, hf]⟩)
    | some p =>
      have he : step s = exec p.1 s := by simp [step, hs, hf]
      exact .inr (.inl ⟨p.1, p.2, rfl, rfl, he, he.trans (exec_of_decodes (decodes_of_decode hf) s)⟩)

/-- One more step of a run, where the step answers a next state. -/
theorem core_run_of_step {s t : State} (n : Nat) (h : step s = .next t) : core.run (n + 1) s = core.run n t := by
  have h' : core.step s = .next t := h
  simp [Host.Core.run, h']

/-- A fetched instruction lies within the buffer. -/
theorem fetch_within {s : State} {i : Instr} {n : Nat} (h : s.fetch = some (i, n)) :
    1 ≤ n ∧ n ≤ s.buf.size - s.offset := by
  have hb := (decodes_of_decode h).bounds
  simp only [DecodeStream.remainder, Memory.slice, List.length_drop, length_bytes] at hb
  omega

@[simp] theorem advanced_ip (i : Instruction) (n : Nat) (s : State) :
    (advanced i n s).ip = s.ip + BitVec.ofNat 64 n := by
  simp [DecodeStream.ip, BitVec.add_assoc, BitVec.ofNat_add]

@[simp] theorem advanced_remainder (i : Instruction) (n : Nat) (s : State) :
    (advanced i n s).remainder = s.remainder.drop n := by
  simp [DecodeStream.remainder, Memory.slice, List.drop_drop]

/-- What a step never writes. -/
theorem step_frame {s t : State} (h : step s = .next t) :
    t.base = s.base ∧ t.buf = s.buf ∧ t.others = s.others ∧ t.sink = s.sink ∧ t.freeCount = s.freeCount := by
  rcases step_cases s with ⟨-, b⟩ | ⟨i, n, -, -, -, b⟩ | ⟨-, -, b⟩ <;> rw [h] at b <;> cases b <;>
    exact ⟨rfl, rfl, rfl, rfl, rfl⟩

/-- Advancing a stream that is not the current one is a step on it, with everything else put back. -/
theorem streamNext_other {s : State} {k : Nat} {stream : DecodeStream} (h : s.others[k]? = some stream) :
    ∃ t, step { s with toDecodeStream := stream } = .next t ∧
      perform (.streamNext (k + 1)) s =
        .next { t with toDecodeStream := s.toDecodeStream, others := s.others.set k t.toDecodeStream } := by
  have hn : ∃ t, step { s with toDecodeStream := stream } = .next t := by
    rcases step_cases { s with toDecodeStream := stream } with ⟨-, b⟩ | ⟨i, n, -, -, -, b⟩ | ⟨-, -, b⟩ <;> exact ⟨_, b⟩
  obtain ⟨t, ht⟩ := hn
  exact ⟨t, ht, by simp [perform, requestStreamNext, h, ht]⟩

end Sys2Proof.Laws
end

