-- ==== Sys2Proof/Laws/Run.lean ====
section
/-! SUPPORT. One call of `stream_next` within a run of the stream (spec/45_stream_decoder.md R143). -/

namespace Sys2Proof.Laws

open Sys2Proof.Machine

/-- With no calls left, nothing is asked of the stream. -/
@[simp] theorem collect_zero (s : State) : collect 0 s = ([], s) := rfl

/-- A call that hands out an instruction puts it at the front of what the later calls hand out. -/
theorem collect_of_fetch {s : State} {i : Instr} {n : Nat} (fuel : Nat) (hs : s.status = .hasNext)
    (hf : s.fetch = some (i, n)) :
    collect (fuel + 1) s =
      ({ instruction := i.value, address := s.ip } :: (collect fuel (advanced i.value n s)).1,
        (collect fuel (advanced i.value n s)).2) := by
  have hstep : step s = .next (advanced i.value n s) := by
    rw [step, hs]
    simp only [hf]
    exact exec_of_decodes (decodes_of_decode hf) s
  simp [collect, hstep]

/-- A call that finds no pattern ends the run. -/
theorem collect_of_no_fetch {s : State} (fuel : Nat) (hs : s.status = .hasNext) (hf : s.fetch = none) :
    collect (fuel + 1) s = ([], endStream s) := by
  have hstep : step s = .next (endStream s) := by simp [step, hs, hf]
  simp [collect, hstep]

/-- A call after the end hands out nothing. -/
theorem collect_of_exhausted {s : State} (fuel : Nat) (hs : s.status = .exhausted) :
    collect (fuel + 1) s = ([], stayExhausted s) := by
  have hstep : step s = .next (stayExhausted s) := by simp [step, hs]
  simp [collect, hstep]

end Sys2Proof.Laws
end

