-- ==== Sys2Proof/Laws/Sink.lean ====
section
/-! SUPPORT. The output sink: appending in stream order, and the capacity (spec/10_state.md R22, spec/20_memory.md R44). -/

namespace Sys2Proof.Laws

open Sys2Proof.Machine

@[simp] theorem contents_empty (epoch : Nat) : (Sink.empty epoch).contents = [] := rfl

@[simp] theorem count_empty (epoch : Nat) : (Sink.empty epoch).count = 0 := rfl

theorem length_contents (k : Sink) (h : k.count ≤ 15) : k.contents.length = k.count := by
  simp [Sink.contents, h]

/-- A push below the capacity appends its byte. -/
theorem push_spec (k : Sink) (b : Byte) (h : k.count < 15) :
    ∃ k', k.push b = .ok k' ∧ k'.contents = k.contents ++ [b] ∧ k'.count = k.count + 1 := by
  refine ⟨_, dif_pos h, ?_, rfl⟩
  simp only [Sink.contents]
  rw [List.take_add_one]
  simp only [Vector.toList_set, List.take_set]
  rw [List.set_eq_of_length_le (by simp)]
  simp [h]

/-- Bytes that fit are appended in order. -/
theorem extend_spec (bs : List Byte) (k : Sink) (h : k.count + bs.length ≤ 15) :
    ∃ k', k.extend bs = .ok k' ∧ k'.contents = k.contents ++ bs ∧ k'.count = k.count + bs.length := by
  induction bs generalizing k with
  | nil => exact ⟨k, rfl, by simp, rfl⟩
  | cons b bs ih =>
    obtain ⟨k1, h1, hc1, hn1⟩ := push_spec k b (by simp at h; omega)
    obtain ⟨k2, h2, hc2, hn2⟩ := ih k1 (by simp at h; omega)
    refine ⟨k2, ?_, by simp [hc2, hc1], by simp [hn2, hn1]; omega⟩
    rw [Sink.extend, h1]
    exact h2

/-- Bytes that do not fit stop at the push that finds the sink full. -/
theorem extend_overflow (bs : List Byte) (k : Sink) (hk : k.count ≤ 15) (h : 15 < k.count + bs.length) :
    k.extend bs = .error .sinkOverflow := by
  induction bs generalizing k with
  | nil => simp at h; omega
  | cons b bs ih =>
    by_cases hc : k.count < 15
    · obtain ⟨k1, h1, -, hn1⟩ := push_spec k b hc
      rw [Sink.extend, h1]
      exact ih k1 (by omega) (by simp at h; omega)
    · rw [Sink.extend, Sink.push, dif_neg hc]
      rfl

/-- If an append succeeds, the counter stays within the capacity. -/
theorem extend_count_le {bs : List Byte} {k k' : Sink} (hk : k.count ≤ 15) (h : k.extend bs = .ok k') : k'.count ≤ 15 := by
  by_cases hc : k.count + bs.length ≤ 15
  · obtain ⟨k2, h2, -, hn⟩ := extend_spec bs k hc
    rw [h] at h2
    cases h2
    omega
  · rw [extend_overflow bs k hk (by omega)] at h
    cases h

end Sys2Proof.Laws
end

