-- ==== Sys2Proof/Machine/Flags.lean ====
section
/-! DEFINITION. The block has no status flags, condition codes or predicates (spec/10_state.md R17), and every
instruction's rule says "Flags: none" (42_rip_relative.md, 43_push_pop.md, 44_no_operand.md). So there is no flag
computation to define. The two states of the stream are stream state, not a flag (R17). -/
end

