-- ==== Sys2Proof/Tests/Slice0.lean ====
section
/-! SUPPORT. Tests of the model and the witnesses of the statements' hypotheses. Every expected value is the spec's own:
spec/95_test_vectors.md (its section is named at each group) or the rule named there. -/

namespace Sys2Proof.Tests

open Sys2Proof Sys2Proof.Machine Sys2Proof.Safety

/-- A fresh stream over these bytes. -/
def fresh (base : Addr) (bytes : List Byte) : State := construct base bytes State.reset

/-- What an outcome hands out and where it leaves the stream. -/
def view : Host.Outcome State Fault Refusal → Option (Option Response × Nat × StreamStatus)
  | .next t => some (t.result, t.offset, t.status)
  | .fault _ | .refused _ => none

/-- An instruction handed out at address 0. -/
def atZero (i : Instruction) : Option Response := some (.stream (some ⟨i, 0#64⟩))

/-! ### WellFormed: each check refuses an ill-formed term (10_state.md R14; 30_encoding.md R53 to R55) -/

theorem test_wf_refuses_wide_immediate :
    (Instr.pushImm8 128#32).wf = false ∧ (Instr.pushImm8 (BitVec.ofInt 32 (-129))).wf = false := by decide
theorem test_wf_refuses_base_register_in_rext :
    (Instr.pushRext .rdi).wf = false ∧ (Instr.popRext .rax).wf = false := by decide
theorem test_wf_refuses_extended_register_in_rbase :
    (Instr.pushRbase .r8).wf = false ∧ (Instr.popRbase .r15).wf = false := by decide
theorem test_wf_refuses_value_shapes : ∀ i ∈ [Instruction.mov (.reg .rcx) (.int 0#32), .mov (.reg .rax) (.reg .rcx),
    .mov (.int 0#32) (.int 0#32), .lea (.reg .rax) (.int 0#32), .lea (.reg .rcx) (.reg .rax), .lea (.int 1#32) (.int 2#32),
    .jmp (.reg .rax), .callIndirect (.reg .rax), .callDirect (.reg .r15), .pop (.int 0#32), .push (.int 128#32),
    .push (.int (BitVec.ofInt 32 (-129)))], i.wf = false := by decide
theorem test_memory_wf_refuses_gap_and_order :
    Memory.wf [(1, 0x50#8)] = false ∧ Memory.wf [(1, 0x50#8), (0, 0x58#8)] = false ∧
    Memory.wf [(0, 0x50#8), (0, 0x58#8)] = false := by decide

/-! ### Decode: every constructor from its bytes (30_encoding.md R56; sections 2.2 to 2.5) -/

theorem test_decode_mov :
    decode [0x48#8, 0x8B#8, 0x05#8, 0x78#8, 0x56#8, 0x34#8, 0x12#8] = some (.mov 305419896#32, 7) := by decide
theorem test_decode_lea :
    decode [0x48#8, 0x8D#8, 0x0D#8, 0x88#8, 0xA9#8, 0xCB#8, 0xED#8] =
      some (.lea (BitVec.ofInt 32 (-305419896)), 7) := by decide
theorem test_decode_jmp :
    decode [0xFF#8, 0x25#8, 0x80#8, 0xFF#8, 0xFF#8, 0xFF#8] = some (.jmp (BitVec.ofInt 32 (-128)), 6) := by decide
theorem test_decode_callIndirect :
    decode [0xFF#8, 0x15#8, 0x69#8, 0x69#8, 0x69#8, 0x69#8] = some (.callIndirect 1768515945#32, 6) := by decide
theorem test_decode_callDirect :
    decode [0xE8#8, 0x01#8, 0x02#8, 0x03#8, 0x04#8, 0x05#8, 0x06#8] = some (.callDirect 67305985#32, 5) := by decide
theorem test_decode_pushImm8 : decode [0x6A#8, 0xC3#8] = some (.pushImm8 (BitVec.ofInt 32 (-61)), 2) := by decide
theorem test_decode_syscall : decode [0x0F#8, 0x05#8, 0x0F#8, 0x0B#8] = some (.syscall, 2) := by decide
theorem test_decode_pushRext : decode [0x41#8, 0x54#8, 0x41#8] = some (.pushRext .r12, 2) := by decide
theorem test_decode_popRext : decode [0x41#8, 0x5F#8] = some (.popRext .r15, 2) := by decide
theorem test_decode_ret : decode [0xC3#8, 0x00#8] = some (.ret, 1) := by decide
theorem test_decode_pushRbase : decode [0x55#8, 0xFF#8] = some (.pushRbase .rbp, 1) := by decide
theorem test_decode_popRbase : decode [0x5E#8] = some (.popRbase .rsi, 1) := by decide

/-- Section 2.6: unrecognised and truncated inputs. -/
def unrecognised : List (List Byte) :=
  [[], [0x90#8], [0xCC#8], [0x00#8], [0x41#8], [0x41#8, 0xC3#8], [0x41#8, 0x41#8, 0x50#8], [0x41#8, 0x4F#8], [0x41#8, 0x60#8],
    [0x4F#8], [0x60#8], [0x48#8], [0x48#8, 0x8B#8, 0x05#8, 0x01#8, 0x02#8, 0x03#8]] ++
  [[0x48#8, 0x8B#8, 0x04#8, 0#8, 0#8, 0#8, 0#8], [0x48#8, 0x8B#8, 0x0D#8, 0#8, 0#8, 0#8, 0#8],
    [0x48#8, 0x8D#8, 0x05#8, 0#8, 0#8, 0#8, 0#8], [0x48#8, 0x89#8, 0x05#8, 0#8, 0#8, 0#8, 0#8], [0x48#8, 0x50#8],
    [0x49#8, 0x50#8], [0x40#8, 0x50#8], [0x4F#8, 0x58#8], [0x8B#8, 0x05#8, 0#8, 0#8, 0#8, 0#8],
    [0x8D#8, 0x0D#8, 0#8, 0#8, 0#8, 0#8]] ++
  [[0xFF#8, 0x35#8, 0#8, 0#8, 0#8, 0#8], [0xFF#8, 0xE0#8], [0xFF#8], [0xFF#8, 0x15#8, 0#8, 0#8, 0#8],
    [0xFF#8, 0x25#8, 0#8, 0#8, 0#8], [0xE8#8, 0#8, 0#8, 0#8], [0xE9#8, 0#8, 0#8, 0#8, 0#8], [0xEB#8, 0#8], [0x6A#8],
    [0x68#8, 0#8, 0#8, 0#8, 0#8], [0x0F#8], [0x0F#8, 0x0B#8], [0x0F#8, 0x34#8], [0xC2#8, 0#8, 0#8], [0x48#8, 0x31#8, 0xC0#8],
    [0x31#8, 0xC0#8], [0x48#8, 0xC3#8]]
theorem test_decode_unrecognised : ∀ w ∈ unrecognised, Codec.decode w = .error .unrecognizedOpcode := by decide

/-! ### Encode, length, resolve, registers (sections 2.1, 2.2, 2.3, 2.4, 2.7, 2.8) -/

theorem test_encode_mov_least :
    Codec.encode (.mov (.reg .rax) (.int (BitVec.ofInt 32 (-2147483648)))) =
      .ok [0x48#8, 0x8B#8, 0x05#8, 0x00#8, 0x00#8, 0x00#8, 0x80#8] := by decide
theorem test_encode_callDirect_negative :
    Codec.encode (.callDirect (.int (BitVec.ofInt 32 (-15)))) = .ok [0xE8#8, 0xF1#8, 0xFF#8, 0xFF#8, 0xFF#8] := by decide
theorem test_encode_registers :
    (Codec.encode (.push (.reg .rsp)) = .ok [0x54#8]) ∧ (Codec.encode (.pop (.reg .rcx)) = .ok [0x59#8]) ∧
    (Codec.encode (.push (.reg .r8)) = .ok [0x41#8, 0x50#8]) ∧
    (Codec.encode (.pop (.reg .r13)) = .ok [0x41#8, 0x5D#8]) := by decide
theorem test_encode_immediates :
    (Codec.encode (.push (.int (BitVec.ofInt 32 (-128)))) = .ok [0x6A#8, 0x80#8]) ∧
    (Codec.encode (.push (.int 255#32)) = .error .invariantViolation) ∧
    (Codec.length (.push (.int 255#32)) = .ok 2) := by decide
theorem test_length_of_ill_formed :
    (Codec.length (.lea (.int 1#32) (.int 2#32)) = .ok 7) ∧ (Codec.length (.callIndirect (.reg .rax)) = .ok 6) ∧
    (Codec.length (.callDirect (.reg .r15)) = .ok 5) ∧
    (Codec.length (.pop (.int 0#32)) = .error .invariantViolation) := by decide
theorem test_resolve :
    (Codec.resolve ⟨.jmp (.int (BitVec.ofInt 32 (-2147483648))), 0x1000#64⟩ = .address 0xFFFFFFFF80001006#64) ∧
    (Codec.resolve ⟨.lea (.reg .rcx) (.int 2147483647#32), 0x1000#64⟩ = .address 0x80001006#64) ∧
    (Codec.resolve ⟨.mov (.reg .rax) (.int (BitVec.ofInt 32 (-4103))), 0x1000#64⟩ = .address 0#64) ∧
    (Codec.resolve ⟨.callDirect (.int 32#32), 0xFFFFFFFFFFFFFFF0#64⟩ = .address 0x15#64) ∧
    (Codec.resolve ⟨.lea (.reg .rax) (.int 16#32), 0x1000#64⟩ = .address 0x1017#64) ∧
    (Codec.resolve ⟨.push (.int 5#32), 0x1000#64⟩ = .notApplicable) := by decide
theorem test_tryParse :
    (tryParse 0x5F#8 false = some .rdi) ∧ (tryParse 0x5F#8 true = some .r15) ∧ (tryParse 0x58#8 true = some .r8) ∧
    (tryParse 0x03#8 true = some .r11) ∧ (tryParse 0xFF#8 false = some .rdi) := by decide
theorem test_encode_request_hands_out_the_sink :
    (view (perform (.encode (.push (.reg .r14))) State.reset)).map Prod.fst = some (some (.encoded [0x41#8, 0x56#8])) := by decide

/-! ### One step per instruction, its word placed after reset (42_rip_relative.md, 43_push_pop.md, 44_no_operand.md) -/

theorem test_step_mov : view (step (State.reset.withFetchWord 56 0x12345678058B48)) =
    some (atZero (.mov (.reg .rax) (.int 305419896#32)), 7, .hasNext) := by decide
theorem test_step_lea : view (step (State.reset.withFetchWord 56 0x000000100D8D48)) =
    some (atZero (.lea (.reg .rcx) (.int 16#32)), 7, .hasNext) := by decide
theorem test_step_jmp : view (step (State.reset.withFetchWord 48 0x8000000025FF)) =
    some (atZero (.jmp (.int (BitVec.ofInt 32 (-2147483648)))), 6, .hasNext) := by decide
theorem test_step_callIndirect : view (step (State.reset.withFetchWord 48 0x0000007F15FF)) =
    some (atZero (.callIndirect (.int 127#32)), 6, .hasNext) := by decide
theorem test_step_callDirect : view (step (State.reset.withFetchWord 40 0xFFFFFFFBE8)) =
    some (atZero (.callDirect (.int (BitVec.ofInt 32 (-5)))), 5, .hasNext) := by decide
theorem test_step_pushImm8 : view (step (State.reset.withFetchWord 16 0xFF6A)) =
    some (atZero (.push (.int (BitVec.ofInt 32 (-1)))), 2, .hasNext) := by decide
theorem test_step_syscall : view (step (State.reset.withFetchWord 16 0x050F)) =
    some (atZero .syscall, 2, .hasNext) := by decide
theorem test_step_pushRext : view (step (State.reset.withFetchWord 16 0x5141)) =
    some (atZero (.push (.reg .r9)), 2, .hasNext) := by decide
theorem test_step_popRext : view (step (State.reset.withFetchWord 16 0x5A41)) =
    some (atZero (.pop (.reg .r10)), 2, .hasNext) := by decide
theorem test_step_ret : view (step (State.reset.withFetchWord 8 0xC3)) =
    some (atZero .ret, 1, .hasNext) := by decide
theorem test_step_pushRbase : view (step (State.reset.withFetchWord 8 0x53)) =
    some (atZero (.push (.reg .rbx)), 1, .hasNext) := by decide
theorem test_step_popRbase : view (step (State.reset.withFetchWord 8 0x5F)) =
    some (atZero (.pop (.reg .rdi)), 1, .hasNext) := by decide

/-! ### The stream (Part 3, programs 2, 4 and 6; 45_stream_decoder.md R142, R146) -/

theorem test_step_address_below_the_top : (match step (fresh 0xFFFFFFFFFFFFFFFC#64 [0x6A#8, 0xFF#8, 0x41#8, 0x50#8]) with
    | .next t => view (step t)
    | _ => none) = some (some (.stream (some ⟨.push (.reg .r8), 0xFFFFFFFFFFFFFFFE#64⟩)), 4, .hasNext) := by decide
theorem test_step_truncated_ends : view (step (fresh 0#64 [0xE8#8, 0#8, 0#8, 0#8])) =
    some (some (.stream none), 0, .exhausted) := by decide
theorem test_step_empty_ends : view (step (fresh 0x2000#64 [])) = some (some (.stream none), 0, .exhausted) := by decide
theorem test_step_does_not_skip : view (step (fresh 0x2000#64 [0x90#8, 0xC3#8])) =
    some (some (.stream none), 0, .exhausted) := by decide
theorem test_step_stays_exhausted : view (step { fresh 0x2000#64 [0xC3#8] with status := .exhausted }) =
    some (some (.stream none), 0, .exhausted) := by decide
theorem test_step_from_the_middle : view (step (fresh 0x401002#64 [0x54#8, 0x48#8])) =
    some (some (.stream (some ⟨.push (.reg .rsp), 0x401002#64⟩)), 1, .hasNext) := by decide

/-- Two streams: the step advances the one constructed last. -/
def twoStreams : State := construct 0x2000#64 [0x58#8, 0xC3#8] (fresh 0x1000#64 [0x50#8])

theorem test_other_stream_advances : (match perform (.streamNext 1) twoStreams with
    | .next t => some (t.result, t.offset, (t.stream 1).map DecodeStream.offset)
    | _ => none) = some (some (.stream (some ⟨.push (.reg .rax), 0x1000#64⟩)), 0, some 1) := by decide

/-! ### Witnesses: concrete operands that meet every hypothesis of a statement, at the ends of their ranges -/

theorem witness_RegisterModelLaws : fullBits .r15 = fullBits .r15 ∧ baseBits .rax = baseBits .r8 := by decide
theorem witness_RegisterRequestsAnswerOrRefuse : 7 < 8 ∧ 8 ≤ 8 ∧ 15 < 16 ∧ 16 ≤ 16 := by decide
theorem witness_DecodeRecognisesExactlyTheTable :
    (Codec.decode [0x41#8, 0x57#8] = .ok (.push (.reg .r15), 2)) ∧
    (Codec.decode [0x0F#8, 0x0B#8] = .error .unrecognizedOpcode) := by decide
theorem witness_RowsAreDisjointAndOrderFree :
    Row.pushRext.matches [0x41#8, 0x50#8] = true ∧ rows.reverse.Perm rows :=
  ⟨by decide, List.reverse_perm rows⟩
theorem witness_MaskAndMatchIsExact : ([0x41#8, 0x57#8] : List Byte)[1]? = some 0x57#8 ∧
    Row.pushRext.maskBytes[1]? = some 0xF8#8 ∧ Row.pushRext.matchBytes[1]? = some 0x50#8 := by decide
theorem witness_UnmatchedOrTruncatedInputIsAbsent :
    (∀ r ∈ rows, r.matches [0x0F#8, 0x0B#8] = false) ∧
    ((Instr.mov 0#32).wf = true ∧ 6 < (encode (.mov 0#32)).length) ∧
    (Instr.ret.wf = true ∧ 0 < (encode .ret).length) ∧
    (Codec.decode [0x0F#8, 0x0B#8] = .error .unrecognizedOpcode) := by decide
theorem witness_DecodeIgnoresTrailingBytes :
    Codec.decode [0xC3#8, 0xFF#8] = .ok (.ret, 1) := by decide
theorem witness_EncodeEmitsTheCanonicalBytes :
    (-128 ≤ (BitVec.ofInt 32 (-128) : I32).toInt ∧ (BitVec.ofInt 32 (-128) : I32).toInt ≤ 127) ∧
    (-128 ≤ (127#32 : I32).toInt ∧ (127#32 : I32).toInt ≤ 127) ∧
    8 ≤ (code .r8).toNat ∧ 8 ≤ (code .r15).toNat ∧ (code .rax).toNat < 8 ∧ (code .rdi).toNat < 8 ∧
    (Codec.encode .ret = .ok [0xC3#8]) ∧ (Codec.decode [0xC3#8] = .ok (.ret, 1)) := by decide
theorem witness_EncodeRefusesIllFormedValues :
    ((Operand.reg .rcx ≠ .reg .rax) ∧ (Operand.reg .rax ≠ .reg .rcx)) ∧
    (∃ r, Operand.reg .rdx = .reg r) ∧
    ((128#32 : I32).toInt < -128 ∨ 127 < (128#32 : I32).toInt) ∧
    ((BitVec.ofInt 32 (-129) : I32).toInt < -128 ∨ 127 < (BitVec.ofInt 32 (-129) : I32).toInt) ∧
    (Instruction.pop (.int 0#32)).wf = false :=
  ⟨by decide, ⟨.rdx, rfl⟩, by decide, by decide, by decide⟩
theorem witness_LengthRequestsAnswerOrFault : ∀ v, Instruction.pop (.reg .r8) ≠ .pop (.int v) := by intro v; simp
theorem witness_EncodingHasTheComputedLength : (Instruction.push (.int 127#32)).wf = true := by decide
theorem witness_DecodeThenEncodeReturnsTheBytes :
    Codec.decode [0x6A#8, 0x80#8, 0x90#8] = .ok (.push (.int (BitVec.ofInt 32 (-128))), 2) := by decide
theorem witness_EncodeThenDecodeReturnsTheValue : (Instruction.lea (.reg .rcx) (.int 0#32)).wf = true := by decide
theorem witness_EveryInstrDecodesFromItsEncoding : ∀ i ∈ [Instr.mov 0#32, .lea 0#32, .jmp 0#32, .callIndirect 0#32,
    .callDirect 0#32, .pushImm8 127#32, .pushImm8 (BitVec.ofInt 32 (-128)), .syscall, .pushRext .r8, .pushRext .r15,
    .popRext .r8, .popRext .r15, .ret, .pushRbase .rax, .pushRbase .rdi, .popRbase .rax, .popRbase .rdi],
    i.wf = true := by decide
theorem witness_ErrorKindsStayApart :
    (Codec.decode [] = .error .unrecognizedOpcode) ∧
    (Codec.encode (.jmp (.reg .rax)) = .error .invariantViolation) ∧
    (Codec.length (.pop (.int 0#32)) = .error .invariantViolation) := by decide
theorem witness_ResolveAddsToTheFollowingAddress :
    (0 ≤ ((0#64 : Addr).toNat : Int) + 6 + (BitVec.ofInt 32 (-6) : I32).toInt ∧
      ((0#64 : Addr).toNat : Int) + 6 + (BitVec.ofInt 32 (-6) : I32).toInt < 2 ^ 64) ∧
    (0 ≤ ((0xFFFFFFFFFFFFFFF0#64 : Addr).toNat : Int) + 7 + (8#32 : I32).toInt ∧
      ((0xFFFFFFFFFFFFFFF0#64 : Addr).toNat : Int) + 7 + (8#32 : I32).toInt < 2 ^ 64) := by decide
theorem witness_ResolveIsNotApplicableWithoutDisplacement :
    Instruction.push (.int 5#32) ∈ [Instruction.push (.int 5#32), .pop (.int 5#32), .ret, .syscall] := by decide
theorem witness_ResolveWrapsAndLooksOnlyAtTheDisplacement :
    (Instruction.lea (.reg .rax) (.int 16#32), 7) ∈ [(Instruction.mov (.reg .rax) (.int 16#32), 7),
      (Instruction.lea (.reg .rax) (.int 16#32), 7)] := by decide
theorem witness_SourceResolveExample :
    0 ≤ (0x1001 : Int) + 6 + (BitVec.ofInt 32 (-4103) : I32).toInt := by decide
theorem witness_PushPopInstructionsComplete :
    (8 ≤ (code .r8).toNat ∧ 8 ≤ (code .r15).toNat) ∧ (code .rax).toNat < 8 ∧ (code .rdi).toNat < 8 := by decide
theorem witness_InstructionsChangeOnlyCursorAndResult :
    (∃ t, exec .ret State.reset = .next t) ∧ Instr.ret.wf = true ∧
    (∃ t, exec (.popRext .r15) State.reset = .next t) ∧ (Instr.popRext .r15).wf = true ∧
    (∃ t, exec (.mov 1#32) State.reset = .next t) ∧ (Instr.mov 1#32).wf = true :=
  ⟨⟨_, rfl⟩, by decide, ⟨_, rfl⟩, by decide, ⟨_, rfl⟩, by decide⟩
theorem witness_StreamConstructionWritesItsFields : ([] : List Byte).length < 2 ^ 64 ∧ ([0xC3#8] : List Byte).length < 2 ^ 64 := by
  decide
theorem witness_OverlongBufferIsRefused : 2 ^ 64 ≤ (List.replicate (2 ^ 64) 0x90#8).length := by
  rw [List.length_replicate]
theorem witness_StreamNextFollowsItsRule :
    (fresh 0#64 [0xC3#8]).status = .hasNext ∧
    (Codec.decode ((fresh 0#64 [0xC3#8]).buf.bytes.drop (fresh 0#64 [0xC3#8]).offset) = .ok (.ret, 1)) ∧
    (fresh 0xFFFFFFFFFFFFFFFF#64 [0xC3#8]).base.toNat + (fresh 0xFFFFFFFFFFFFFFFF#64 [0xC3#8]).offset < 2 ^ 64 ∧
    (Codec.decode ((fresh 0#64 []).buf.bytes.drop (fresh 0#64 []).offset) = .error .unrecognizedOpcode) ∧
    { fresh 0#64 [] with status := .exhausted }.status = .exhausted := by decide
theorem witness_HandedOutAddressWraps :
    ∃ t p, step { fresh 0xFFFFFFFFFFFFFFFC#64 [0x90#8, 0x90#8, 0x90#8, 0x90#8, 0xC3#8] with offset := 4 } = .next t ∧
      t.result = some (.stream (some p)) ∧ p.address = 0#64 :=
  ⟨_, ⟨.ret, 0#64⟩, rfl, by decide, rfl⟩
theorem witness_ExhaustedIsPermanent :
    (∃ t, step (fresh 0#64 []) = .next t) ∧ { fresh 0#64 [] with status := .exhausted }.status = .exhausted :=
  ⟨⟨_, rfl⟩, rfl⟩
theorem witness_StreamNextAlwaysCompletes :
    (twoStreams.stream 1).isSome = true ∧ twoStreams.stream 3 = none ∧ State.reset.stream 1 = none := by decide
theorem witness_StepRunsTheDecodedInstruction :
    (fresh 0#64 [0x5D#8]).status = .hasNext ∧
    decode ((fresh 0#64 [0x5D#8]).buf.bytes.drop (fresh 0#64 [0x5D#8]).offset) = some (.popRbase .rbp, 1) := by decide
theorem witness_StepRunsTheEncodedInstruction :
    (Instr.pushImm8 60#32).wf = true ∧ (fresh 0#64 [0x6A#8, 0x3C#8, 0xC3#8]).status = .hasNext ∧
    (fresh 0#64 [0x6A#8, 0x3C#8, 0xC3#8]).buf.bytes.drop (fresh 0#64 [0x6A#8, 0x3C#8, 0xC3#8]).offset =
      encode (.pushImm8 60#32) ++ [0xC3#8] := by decide
theorem witness_PlacedWordIsTheNextInstruction : decodeTableWord 16 0x050F = some .syscall := by decide
theorem witness_RipRelativeBytesAreHandedOut :
    (fresh 0#64 [0xE8#8, 1#8, 2#8, 3#8, 4#8]).status = .hasNext ∧
    (fresh 0#64 [0xE8#8, 1#8, 2#8, 3#8, 4#8]).buf.bytes.drop (fresh 0#64 [0xE8#8, 1#8, 2#8, 3#8, 4#8]).offset =
      [0xE8#8] ++ [1#8, 2#8, 3#8, 4#8] ++ [] := by decide
theorem witness_PushPopAndNoOperandBytesAreHandedOut :
    (∀ w ∈ [[0x6A#8, 0x80#8], [0x41#8, 0x50#8], [0x41#8, 0x5F#8], [0x50#8], [0x5F#8], [0x0F#8, 0x05#8], [0xC3#8]],
      (fresh 0#64 w).status = .hasNext ∧ (fresh 0#64 w).buf.bytes.drop (fresh 0#64 w).offset = w) ∧
    (code .r8).toNat = (0#3).toNat + 8 ∧ (code .r15).toNat = (7#3).toNat + 8 ∧
    (code .rax).toNat = (0#3).toNat ∧ (code .rdi).toNat = (7#3).toNat := by decide
theorem witness_StreamSeesOnlyItsOwnFields : ∃ s' t',
    step (fresh 0#64 [0xC3#8]) = .next s' ∧ step { fresh 0#64 [0xC3#8] with result := none, freeCount := 9 } = .next t' :=
  ⟨_, _, rfl, rfl⟩
theorem witness_StreamsDoNotDisturbEachOther :
    (∃ t, perform (.streamNext 1) twoStreams = .next t) ∧ (∃ t, perform (.streamNew 0#64 []) twoStreams = .next t) :=
  ⟨⟨_, rfl⟩, ⟨construct 0#64 [] twoStreams, by
    simp [perform, requestStreamNew]⟩⟩
theorem witness_AdvancesOfDifferentStreamsCommute : ∃ t u t' u',
    perform (.streamNext 0) twoStreams = .next t ∧ perform (.streamNext 1) t = .next u ∧
    perform (.streamNext 1) twoStreams = .next t' ∧ perform (.streamNext 0) t' = .next u' :=
  ⟨_, _, _, _, rfl, rfl, rfl, rfl⟩
theorem witness_StepKeepsTheStreamInvariant :
    Inv (fresh 0x1000#64 [0xC3#8]) ∧ ∃ t, step (fresh 0x1000#64 [0xC3#8]) = .next t := by
  refine ⟨⟨⟨by decide, by decide, by decide, by decide⟩, ?_, by decide⟩, _, rfl⟩
  intro t ht
  have : t = State.reset.toDecodeStream := by simpa [fresh, construct, State.reset] using ht
  subst this
  exact ⟨by decide, by decide, by decide, by decide⟩
theorem witness_RequestsKeepTheStreamInvariant :
    Inv State.reset ∧ ∃ t, perform (.length .ret) State.reset = .next t :=
  ⟨⟨⟨by decide, by decide, by decide, by decide⟩, by simp [State.reset], by decide⟩, _, rfl⟩
theorem witness_OnlyTheNamedOperationsWriteState : (∃ t, perform (.resolve ⟨.ret, 0#64⟩) State.reset = .next t) ∧
    (∀ base bytes, Request.resolve ⟨.ret, 0#64⟩ ≠ .streamNew base bytes) ∧
    (∀ k, Request.resolve ⟨.ret, 0#64⟩ ≠ .streamNext k) ∧ (∀ i, Request.resolve ⟨.ret, 0#64⟩ ≠ .encode i) :=
  ⟨⟨_, rfl⟩, by simp, by simp, by simp⟩
theorem witness_EncodeFillsTheSinkInStreamOrder : (Instruction.mov (.reg .rax) (.int 1#32)).wf = true ∧
    ([0x90#8, 0xC3#8, 0x90#8] : List Byte).drop 1 = [0xC3#8] ++ [0x90#8] := by decide
theorem witness_SinkHoldsTwoEncodingsButMaybeNotThree :
    Sink.reset.count < 15 ∧ { Sink.reset with count := 14 }.count < 15 ∧ 15 ≤ { Sink.reset with count := 15 }.count ∧
    (Instruction.mov (.reg .rax) (.int 1#32)).wf = true := by decide
theorem witness_StreamOverEncodedProgramYieldsIt :
    ∀ i ∈ [Instr.pushRbase .rbp, .pushRext .r12, .lea 16#32, .ret], i.wf = true := by decide
theorem witness_LaterSliceContinuesTheStream : ∃ t,
    collect 1 (construct 0#64 [0xC3#8, 0x50#8] State.reset) = ([⟨.ret, 0#64⟩], t) ∧ t.offset = 1 :=
  ⟨_, rfl, rfl⟩

end Sys2Proof.Tests
end

section
/-! Encoding and then decoding: the canonical bytes of a well-formed value fill the sink in stream order and decode to the
value again (spec/20_memory.md R44, spec/41_codec_operations.md R101). -/

namespace Sys2Proof.Proofs

open Sys2Proof.Machine Sys2Proof.Laws

/-- The register field of a Push or Pop byte names the register the encoder put there (30_encoding.md R55). -/
theorem regFromBaseBits_opcodePlusReg {r : Register} {ext : Bool} (h : isExtended r = ext) :
    regFromBaseBits (registerField (opcodePlusReg 0x50#8 r)) ext = r ∧
      regFromBaseBits (registerField (opcodePlusReg 0x58#8 r)) ext = r := by
  obtain ⟨hpush, hpop⟩ := registerField_opcode r
  rw [hpush, hpop, ← h]
  exact ⟨regFromBaseBits_baseBits r, regFromBaseBits_baseBits r⟩

/-- The family of Laws/PerInstr.lean, over all instructions. -/
theorem encodedBytesMatchRow (i : Instr) : EncodedBytesMatchRow.Statement i := by
  cases i with
  | mov d => exact EncodedBytesMatchRow.mov d
  | lea d => exact EncodedBytesMatchRow.lea d
  | jmp d => exact EncodedBytesMatchRow.jmp d
  | callIndirect d => exact EncodedBytesMatchRow.callIndirect d
  | callDirect d => exact EncodedBytesMatchRow.callDirect d
  | pushImm8 v => exact EncodedBytesMatchRow.pushImm8 v
  | syscall => exact EncodedBytesMatchRow.syscall
  | pushRext r => exact EncodedBytesMatchRow.pushRext r
  | popRext r => exact EncodedBytesMatchRow.popRext r
  | ret => exact EncodedBytesMatchRow.ret
  | pushRbase r => exact EncodedBytesMatchRow.pushRbase r
  | popRbase r => exact EncodedBytesMatchRow.popRbase r

/-- The operands read from the encoding of a well-formed instruction are its own. -/
theorem row_read_encode {i : Instr} (h : i.wf = true) (t : List Byte) : i.row.read (encode i ++ t) = i := by
  cases i with
  | mov d => exact congrArg Instr.mov (le32s_le32 d)
  | lea d => exact congrArg Instr.lea (le32s_le32 d)
  | jmp d => exact congrArg Instr.jmp (le32s_le32 d)
  | callIndirect d => exact congrArg Instr.callIndirect (le32s_le32 d)
  | callDirect d => exact congrArg Instr.callDirect (le32s_le32 d)
  | pushImm8 v => exact congrArg Instr.pushImm8 (sext8to32_lo8 v h)
  | syscall => rfl
  | pushRext r => exact congrArg Instr.pushRext (regFromBaseBits_opcodePlusReg h).1
  | popRext r => exact congrArg Instr.popRext (regFromBaseBits_opcodePlusReg h).2
  | ret => rfl
  | pushRbase r =>
    have hbase : isExtended r = false := by simpa [Instr.wf] using h
    exact congrArg Instr.pushRbase (regFromBaseBits_opcodePlusReg hbase).1
  | popRbase r =>
    have hbase : isExtended r = false := by simpa [Instr.wf] using h
    exact congrArg Instr.popRbase (regFromBaseBits_opcodePlusReg hbase).2

/-- The encoding of a well-formed instruction, whatever bytes follow, is the shape the decoder accepts for it. -/
theorem decodes_encode {i : Instr} (h : i.wf = true) (t : List Byte) :
    Decodes (encode i ++ t) i (encode i).length := by
  obtain ⟨hlength, hmatches⟩ := encodedBytesMatchRow i h
  have hread := Decodes.of_matches i.row (encode i ++ t) (hmatches t)
  rwa [row_read_encode h t, ← hlength] at hread

/-- A well-formed value is one of those encode has a row for (10_state.md R14, 41_codec_operations.md R96). -/
theorem exists_canonical_of_wf {v : Instruction} (h : v.wf = true) : ∃ i, Codec.canonical v = some i := by
  unfold Instruction.wf at h
  split at h <;> simp_all [Codec.canonical]

/-- A well-formed value has an encoding of at most seven bytes (41_codec_operations.md R95). -/
theorem exists_codec_encode_of_wf {v : Instruction} (h : v.wf = true) :
    ∃ b, Codec.encode v = .ok b ∧ b.length ≤ 7 := by
  obtain ⟨i, hi⟩ := exists_canonical_of_wf h
  obtain ⟨-, hle, -⟩ := (decodes_encode (value_canonical hi).2 []).bounds
  exact ⟨encode i, codec_encode_ok.2 ⟨i, hi, rfl⟩, hle⟩

/-- What the codec encodes decodes to the same value, whatever bytes follow (41_codec_operations.md R101). -/
theorem codec_decode_of_encode {v : Instruction} {b : List Byte} (h : Codec.encode v = .ok b) (t : List Byte) :
    Codec.decode (b ++ t) = .ok (v, b.length) := by
  obtain ⟨i, hi, rfl⟩ := codec_encode_ok.1 h
  obtain ⟨hv, hwf⟩ := value_canonical hi
  exact codec_decode_ok.2 ⟨i, (decodes_encode hwf t).decode, hv⟩

/-- A cell below the counter holds the byte at its place in the contents (10_state.md R22). -/
theorem cell_eq_contents (k : Sink) (j : Nat) (h : j < 15) (hj : j < k.count) :
    some k.cells[j] = k.contents[j]? := by
  simp [Sink.contents, List.getElem?_take_of_lt hj, h]

/-- Encoding into an empty sink leaves the canonical bytes in it, and nothing else. -/
theorem encodeInto_empty {v : Instruction} {b : List Byte} (h : Codec.encode v = .ok b) (hb : b.length ≤ 15)
    (epoch : Nat) :
    ∃ k, encodeInto (Sink.empty epoch) v = .ok k ∧ k.contents = b ∧ k.count = b.length := by
  obtain ⟨k, hk, hc, hn⟩ := extend_spec b (Sink.empty epoch) (by simpa using hb)
  refine ⟨k, ?_, by simpa using hc, by simpa using hn⟩
  simp only [encodeInto, h, hk]

/-- An encode whose sink ends as `k` completes: it writes the sink, hands out its contents and moves on the free values. -/
theorem perform_encode_of_encodeInto {v : Instruction} {s : State} {k : Sink}
    (h : encodeInto (Sink.empty s.freeCount) v = .ok k) :
    perform (.encode v) s =
      .next { s with sink := k, result := some (.encoded k.contents), freeCount := s.freeCount + 1 } := by
  simp only [perform, requestEncode, h]

/-- Settles O49: the canonical bytes fit the empty sink, appending puts them there in order, and they decode to the value
wherever they stand. -/
theorem encodeFillsTheSinkInStreamOrder : Obligations.EncodeFillsTheSinkInStreamOrder := by
  intro v s hwf
  obtain ⟨b, hb, hlen⟩ := exists_codec_encode_of_wf hwf
  obtain ⟨k, hk, hcontents, hcount⟩ := encodeInto_empty hb (by omega) s.freeCount
  refine ⟨b, _, hb, perform_encode_of_encodeInto hk, hcount, hcontents, ?cells, by rw [hcontents], rfl, rfl, ?decodes⟩
  case cells =>
    intro j hj hjb
    rw [← hcontents]
    exact cell_eq_contents k j hj (hcount ▸ hjb)
  case decodes =>
    intro buffer rest j hdrop
    rw [hdrop]
    exact codec_decode_of_encode hb rest

end Sys2Proof.Proofs
end

section
/-! The register codes: both directions of the lookup, and the bits of the code of a register
(spec/40_register_model.md R80, R84 to R86). -/

namespace Sys2Proof.Proofs

@[simp] theorem regOfCode_code (r : Register) : regOfCode (code r) = r := by
  cases r <;> rfl

@[simp] theorem code_regOfCode (c : BitVec 4) : code (regOfCode c) = c := by
  revert c; decide

/-- The two directions of the lookup are inverse to each other (R80). -/
theorem code_eq_iff (c : BitVec 4) (r : Register) : code r = c ↔ regOfCode c = r := by
  constructor
  · rintro rfl
    exact regOfCode_code r
  · rintro rfl
    exact code_regOfCode c

/-- The sixteen pairs of R80, as `Obligations.RegisterTableInBothDirections` lists them. -/
def registerTable : List (BitVec 4 × Register) :=
  [(0, .rax), (1, .rcx), (2, .rdx), (3, .rbx), (4, .rsp), (5, .rbp), (6, .rsi), (7, .rdi),
    (8, .r8), (9, .r9), (10, .r10), (11, .r11), (12, .r12), (13, .r13), (14, .r14), (15, .r15)]

theorem code_of_mem_registerTable : ∀ p ∈ registerTable, code p.2 = p.1 := by decide

theorem code_mem_registerTable (r : Register) : (code r, r) ∈ registerTable := by
  cases r <;> decide

/-- The table is the graph of `code`. -/
theorem mem_registerTable_iff (c : BitVec 4) (r : Register) : (c, r) ∈ registerTable ↔ code r = c := by
  constructor
  · exact code_of_mem_registerTable (c, r)
  · rintro rfl
    exact code_mem_registerTable r

/-- Settles O1: the table is the graph of `code`, and `regOfCode` is the inverse of `code`. -/
theorem registerTableInBothDirections : Obligations.RegisterTableInBothDirections := by
  intro c r
  have htable : regOfCode c = r ↔ (c, r) ∈ registerTable :=
    (code_eq_iff c r).symm.trans (mem_registerTable_iff c r).symm
  exact ⟨htable, code_eq_iff c r⟩

/-- The registers with the extension bit are those of `EXT_TABLE` (R84). -/
theorem isExtended_iff_mem_extTable (r : Register) : isExtended r = true ↔ r ∈ extTable := by
  cases r <;> decide

/-- Masking with `0b0111` is the remainder by 8 (R85). -/
theorem baseBits_toNat (r : Register) : (baseBits r).toNat = (code r).toNat % 8 := by
  have hmask : (code r).toNat &&& 7 = (code r).toNat % 8 := Nat.and_two_pow_sub_one_eq_mod _ 3
  rw [baseBits, BitVec.toNat_setWidth, BitVec.toNat_and]
  exact (congrArg (· % 8) hmask).trans (Nat.mod_mod _ 8)

theorem baseBits_eq_iff (q r : Register) : baseBits q = baseBits r ↔ (code q).toNat % 8 = (code r).toNat % 8 := by
  rw [← BitVec.toNat_inj, baseBits_toNat, baseBits_toNat]

/-- The low three bits of a 4-bit number, with bit 3 put back, are the number. -/
theorem lowBits_or_bit3 (c : BitVec 4) :
    ((c &&& 0b0111#4).setWidth 3).setWidth 4 ||| (if decide (8 ≤ c) then 0b1000#4 else 0#4) = c := by
  revert c; decide

/-- The full number of a register is its code (R86). -/
theorem fullBits_eq_code (r : Register) : fullBits r = code r := lowBits_or_bit3 (code r)

/-- Settles O2: the extension bit is bit 3 of the code and the base bits are its remainder by 8, so together they give
the code back. -/
theorem registerBitsOfEachRegister : Obligations.RegisterBitsOfEachRegister := fun r =>
  ⟨isExtended_iff_mem_extTable r, baseBits_toNat r, fun q => baseBits_eq_iff q r, rfl, fullBits_eq_code r⟩

end Sys2Proof.Proofs
end

section
/-! decode: what it answers and what it looks at (spec/41_codec_operations.md R90, R92, R93), and encoding what was decoded
(R97, R100). -/

namespace Sys2Proof.Proofs

open Sys2Proof.Machine Sys2Proof.Laws

/-- The decoder answers exactly the accepted shapes. -/
theorem decode_eq_some_iff {w : List Byte} {i : Instr} {n : Nat} : decode w = some (i, n) ↔ Decodes w i n :=
  ⟨decodes_of_decode, Decodes.decode⟩

/-- An input has one answer. -/
theorem decodes_unique {w : List Byte} {i j : Instr} {n m : Nat} (hi : Decodes w i n) (hj : Decodes w j m) :
    i = j ∧ n = m := by
  simpa using hi.decode.symm.trans hj.decode

/-- The decoder is absent exactly where no row matches (R92). -/
theorem decode_eq_none_iff {w : List Byte} : decode w = none ↔ ∀ r ∈ rows, r.matches w = false := by
  simp [decode, List.find?_eq_none]

/-- The codec's answers are the tagged values of the accepted shapes. -/
theorem codec_decode_ok_iff {w : List Byte} {v : Instruction} {n : Nat} :
    Codec.decode w = .ok (v, n) ↔ ∃ i, Decodes w i n ∧ i.value = v := by
  simp only [codec_decode_ok, decode_eq_some_iff]

/-- The codec's only other verdict is UnrecognizedOpcode, where the decoder is absent. -/
theorem codec_decode_error_iff {w : List Byte} {e : ErrorKind} :
    Codec.decode w = .error e ↔ decode w = none ∧ e = .unrecognizedOpcode := by
  unfold Codec.decode
  cases decode w <;> simp [eq_comm]

/-- Operands read from bytes are ones the row's bytes can carry. -/
theorem decodes_wf {w : List Byte} {i : Instr} {n : Nat} (h : Decodes w i n) : i.wf = true := by
  cases h with
  | pushImm8 ib t => exact fitsImm8_sext8to32 ib
  | pushRext rb t h => exact isExtended_regFromBaseBits _ true
  | popRext rb t h => exact isExtended_regFromBaseBits _ true
  | pushRbase rb t h => exact congrArg not (isExtended_regFromBaseBits _ false)
  | popRbase rb t h => exact congrArg not (isExtended_regFromBaseBits _ false)
  | _ => rfl

/-- A well-formed instruction of a row stands for a well-formed tagged value (10_state.md R14). -/
theorem value_wf {i : Instr} (h : i.wf = true) : i.value.wf = true := by
  cases i with
  | pushImm8 v => exact h
  | _ => rfl

/-- The encoder puts back the bytes that were consumed (R100). -/
theorem encode_of_decodes {w : List Byte} {i : Instr} {n : Nat} (h : Decodes w i n) : encode i = w.take n := by
  cases h with
  | mov d0 d1 d2 d3 t => exact congrArg ([0x48#8, 0x8B#8, 0x05#8] ++ ·) (le32_le32s d0 d1 d2 d3)
  | lea d0 d1 d2 d3 t => exact congrArg ([0x48#8, 0x8D#8, 0x0D#8] ++ ·) (le32_le32s d0 d1 d2 d3)
  | jmp d0 d1 d2 d3 t => exact congrArg ([0xFF#8, 0x25#8] ++ ·) (le32_le32s d0 d1 d2 d3)
  | callIndirect d0 d1 d2 d3 t => exact congrArg ([0xFF#8, 0x15#8] ++ ·) (le32_le32s d0 d1 d2 d3)
  | callDirect d0 d1 d2 d3 t => exact congrArg ([0xE8#8] ++ ·) (le32_le32s d0 d1 d2 d3)
  | pushImm8 ib t => exact congrArg ([0x6A#8, ·]) (lo8_sext8to32 ib)
  | pushRext rb t h => exact congrArg ([0x41#8, ·]) (opcodePlusReg_push rb true h)
  | popRext rb t h => exact congrArg ([0x41#8, ·]) (opcodePlusReg_pop rb true h)
  | pushRbase rb t h => exact congrArg ([·]) (opcodePlusReg_push rb false h)
  | popRbase rb t h => exact congrArg ([·]) (opcodePlusReg_pop rb false h)
  | syscall t => rfl
  | ret t => rfl

/-- Settles O18: the encoder puts back the consumed bytes, and the length of the value is their number. -/
theorem decodeThenEncodeReturnsTheBytes : Obligations.DecodeThenEncodeReturnsTheBytes := by
  intro w v n h
  obtain ⟨i, hi, rfl⟩ := codec_decode_ok_iff.1 h
  have hencode : Codec.encode i.value = .ok (w.take n) :=
    codec_encode_ok.2 ⟨i, canonical_value i (decodes_wf hi), encode_of_decodes hi⟩
  exact ⟨hencode, hi.length_value⟩

/-- Settles O6: the accepted shapes are the rows of the table, one by one; the verdict beside them is UnrecognizedOpcode, and
operands read from bytes are well-formed. -/
theorem decodeRecognisesExactlyTheTable : Obligations.DecodeRecognisesExactlyTheTable := by
  refine ⟨fun w v n => codec_decode_ok_iff.trans ⟨?shapeIsRow, ?rowIsShape⟩,
    fun w e h => (codec_decode_error_iff.1 h).2, ?valueWf⟩
  case shapeIsRow =>
    rintro ⟨i, h, rfl⟩
    cases h with
    | mov d0 d1 d2 d3 t => exact .inl ⟨d0, d1, d2, d3, t, rfl, rfl, rfl⟩
    | lea d0 d1 d2 d3 t => exact .inr (.inl ⟨d0, d1, d2, d3, t, rfl, rfl, rfl⟩)
    | jmp d0 d1 d2 d3 t =>
      iterate 2 right
      exact .inl ⟨d0, d1, d2, d3, t, rfl, rfl, rfl⟩
    | callIndirect d0 d1 d2 d3 t =>
      iterate 3 right
      exact .inl ⟨d0, d1, d2, d3, t, rfl, rfl, rfl⟩
    | callDirect d0 d1 d2 d3 t =>
      iterate 4 right
      exact .inl ⟨d0, d1, d2, d3, t, rfl, rfl, rfl⟩
    | pushImm8 ib t =>
      iterate 5 right
      exact .inl ⟨ib, t, rfl, rfl, rfl⟩
    | syscall t =>
      iterate 6 right
      exact .inl ⟨t, rfl, rfl, rfl⟩
    | pushRext rb t hr =>
      iterate 7 right
      exact .inl ⟨rb, t, rfl, hr.1, hr.2, rfl, rfl⟩
    | popRext rb t hr =>
      iterate 8 right
      exact .inl ⟨rb, t, rfl, hr.1, hr.2, rfl, rfl⟩
    | ret t =>
      iterate 9 right
      exact .inl ⟨t, rfl, rfl, rfl⟩
    | pushRbase rb t hr =>
      iterate 10 right
      exact .inl ⟨rb, t, rfl, hr.1, hr.2, rfl, rfl⟩
    | popRbase rb t hr =>
      iterate 11 right
      exact ⟨rb, t, rfl, hr.1, hr.2, rfl, rfl⟩
  case rowIsShape =>
    rintro (⟨d0, d1, d2, d3, t, rfl, rfl, rfl⟩ | ⟨d0, d1, d2, d3, t, rfl, rfl, rfl⟩ |
      ⟨d0, d1, d2, d3, t, rfl, rfl, rfl⟩ | ⟨d0, d1, d2, d3, t, rfl, rfl, rfl⟩ | ⟨d0, d1, d2, d3, t, rfl, rfl, rfl⟩ |
      ⟨ib, t, rfl, rfl, rfl⟩ | ⟨t, rfl, rfl, rfl⟩ | ⟨rb, t, rfl, hlo, hhi, rfl, rfl⟩ | ⟨rb, t, rfl, hlo, hhi, rfl, rfl⟩ |
      ⟨t, rfl, rfl, rfl⟩ | ⟨rb, t, rfl, hlo, hhi, rfl, rfl⟩ | ⟨rb, t, rfl, hlo, hhi, rfl, rfl⟩)
    · exact ⟨_, .mov d0 d1 d2 d3 t, rfl⟩
    · exact ⟨_, .lea d0 d1 d2 d3 t, rfl⟩
    · exact ⟨_, .jmp d0 d1 d2 d3 t, rfl⟩
    · exact ⟨_, .callIndirect d0 d1 d2 d3 t, rfl⟩
    · exact ⟨_, .callDirect d0 d1 d2 d3 t, rfl⟩
    · exact ⟨_, .pushImm8 ib t, rfl⟩
    · exact ⟨_, .syscall t, rfl⟩
    · exact ⟨_, .pushRext rb t ⟨hlo, hhi⟩, rfl⟩
    · exact ⟨_, .popRext rb t ⟨hlo, hhi⟩, rfl⟩
    · exact ⟨_, .ret t, rfl⟩
    · exact ⟨_, .pushRbase rb t ⟨hlo, hhi⟩, rfl⟩
    · exact ⟨_, .popRbase rb t ⟨hlo, hhi⟩, rfl⟩
  case valueWf =>
    intro w v n h
    obtain ⟨i, hi, rfl⟩ := codec_decode_ok_iff.1 h
    exact value_wf (decodes_wf hi)

/-- Only the consumed bytes count: they are the encoding of the answer, which decodes to it whatever follows (R93). -/
theorem decodes_take_append {w : List Byte} {i : Instr} {n : Nat} (h : Decodes w i n) (t : List Byte) :
    Decodes (w.take n ++ t) i n := by
  obtain ⟨-, -, hn⟩ := h.bounds
  have hround := decodes_encode (decodes_wf h) t
  rwa [encode_of_decodes h, List.length_take_of_le hn] at hround

/-- Inputs that agree in the consumed bytes have the same answer (R93). -/
theorem decodes_of_take_eq {w u : List Byte} {i : Instr} {n : Nat} (h : Decodes w i n) (hu : u.take n = w.take n) :
    Decodes u i n := by
  have hround := decodes_take_append h (u.drop n)
  rwa [← hu, List.take_append_drop] at hround

/-- A cut at seven bytes keeps every answer. -/
theorem decodes_take_seven_iff {w : List Byte} {i : Instr} {n : Nat} : Decodes (w.take 7) i n ↔ Decodes w i n := by
  have htake (hn : n ≤ 7) : (w.take 7).take n = w.take n := by rw [List.take_take, Nat.min_eq_left hn]
  constructor
  · intro h
    obtain ⟨-, hn, -⟩ := h.bounds
    exact decodes_of_take_eq h (htake hn).symm
  · intro h
    obtain ⟨-, hn, -⟩ := h.bounds
    exact decodes_of_take_eq h (htake hn)

/-- The decoder looks at the first seven bytes only (R93). -/
theorem decode_take_seven (w : List Byte) : decode (w.take 7) = decode w := by
  apply Option.ext
  rintro ⟨i, n⟩
  rw [decode_eq_some_iff, decode_eq_some_iff, decodes_take_seven_iff]

/-- A cut short of the consumed length matches nothing: an answer for it would be one for the whole input, which has only
the longer one (R92). -/
theorem decode_take_of_lt {w : List Byte} {i : Instr} {n k : Nat} (h : Decodes w i n) (hk : k < n) :
    decode (w.take k) = none := by
  rw [Option.eq_none_iff_forall_ne_some]
  rintro ⟨j, m⟩ hcut
  have hj : Decodes (w.take k) j m := decodes_of_decode hcut
  obtain ⟨-, -, hm⟩ := hj.bounds
  have hmk : m ≤ k := hm.trans (List.length_take_le k w)
  have hwhole : Decodes w j m := decodes_of_take_eq hj (by rw [List.take_take, Nat.min_eq_left hmk])
  obtain ⟨-, hnm⟩ := decodes_unique h hwhole
  omega

/-- Settles O10: the decoder is absent where no row matches and on every cut of an encoding, and the request writes nothing
but its answer. -/
theorem unmatchedOrTruncatedInputIsAbsent : Obligations.UnmatchedOrTruncatedInputIsAbsent := by
  refine ⟨?unmatched, ?truncated, ?request⟩
  case unmatched =>
    intro w h
    exact codec_decode_error_iff.2 ⟨decode_eq_none_iff.2 h, rfl⟩
  case truncated =>
    intro i k hwf hk
    have hi : Decodes (encode i) i (encode i).length := by simpa using decodes_encode hwf []
    exact codec_decode_error_iff.2 ⟨decode_take_of_lt hi hk, rfl⟩
  case request =>
    intro w s h
    simp only [perform, answer, h]

/-- Settles O11: a verdict is an error or an answer; an answer consumes present bytes and depends on nothing after them; the
longest has seven. -/
theorem decodeIgnoresTrailingBytes : Obligations.DecodeIgnoresTrailingBytes := by
  refine ⟨?total, ?trailing, ?firstSeven⟩
  case total =>
    intro w
    cases h : Codec.decode w with
    | error e => exact .inl (congrArg Except.error (codec_decode_error_iff.1 h).2)
    | ok p => exact .inr ⟨p.1, p.2, rfl⟩
  case trailing =>
    intro w v n h
    obtain ⟨i, hi, hv⟩ := codec_decode_ok_iff.1 h
    obtain ⟨-, -, hpresent⟩ := hi.bounds
    exact ⟨hpresent, fun t => codec_decode_ok_iff.2 ⟨i, decodes_take_append hi t, hv⟩⟩
  case firstSeven =>
    intro w
    simp only [Codec.decode, decode_take_seven]

/-- The extension bit is bit 3 of the code (40_register_model.md R84). -/
theorem isExtended_iff_code (r : Register) : isExtended r = true ↔ 8 ≤ (code r).toNat := decide_eq_true_iff

/-- One byte, and the byte `0x41` before it for an extended register. -/
theorem registerForm_length (r : Register) :
    (if isExtended r then 2 else 1) = 1 + if 8 ≤ (code r).toNat then 1 else 0 := by
  simp only [isExtended_iff_code]
  split <;> rfl

/-- Settles O15: the table, with the length of a register form by its extension bit. -/
theorem lengthByVariant : Obligations.LengthByVariant :=
  ⟨fun _ _ => ⟨rfl, rfl⟩, fun _ => ⟨rfl, rfl, rfl⟩, fun _ => rfl,
    fun r => ⟨congrArg Except.ok (registerForm_length r), congrArg Except.ok (registerForm_length r)⟩, rfl, rfl⟩

end Sys2Proof.Proofs
end

section
/-! The decode stream: what stream_new writes, what one call of stream_next does, and the worked examples of a stream and of a
target (spec/45_stream_decoder.md R140 to R142, R147, R151). -/

namespace Sys2Proof.Proofs

open Sys2Proof.Machine Sys2Proof.Laws Sys2Proof.Safety

/-- A buffer of at most `MAX_BUF` bytes is accepted, whatever the base and the state (00_scope.md R4). -/
theorem perform_streamNew {bytes : List Byte} (h : bytes.length < 2 ^ 64) (base : Addr) (s : State) :
    perform (.streamNew base bytes) s = .next (construct base bytes s) := by
  have hmax : bytes.length ≤ Config.maxBuf := Nat.le_sub_one_of_lt h
  simp only [perform, requestStreamNew, if_pos hmax]

/-- Index `k` of the buffer made from a byte sequence reads its byte `k` (20_memory.md R35). -/
theorem read_ofBytes (bytes : List Byte) (k : Nat) : (Memory.ofBytes bytes).read k = bytes[k]? := by
  rw [read_eq _ (ofBytes_wf bytes), bytes_ofBytes]

/-- Settles O30: a buffer within the bound is accepted, and `construct` writes the four fields. -/
theorem streamConstructionWritesItsFields : Obligations.StreamConstructionWritesItsFields := by
  intro base bytes s h
  exact ⟨construct base bytes s, perform_streamNew h base s, rfl, bytes_ofBytes bytes, read_ofBytes bytes, rfl, rfl, rfl, rfl⟩

/-- The codec's answer at the cursor is the tagged value of the fetched instruction. -/
theorem codec_decode_ok_iff_fetch {s : State} {v : Instruction} {n : Nat} :
    Codec.decode (s.buf.bytes.drop s.offset) = .ok (v, n) ↔ ∃ i, s.fetch = some (i, n) ∧ i.value = v :=
  codec_decode_ok

/-- Nothing is fetched exactly where the codec has no answer at the cursor. -/
theorem fetch_eq_none_iff {s : State} :
    s.fetch = none ↔ ∀ v n, Codec.decode (s.buf.bytes.drop s.offset) ≠ .ok (v, n) := by
  constructor
  · intro hnone v n h
    obtain ⟨i, hf, -⟩ := codec_decode_ok_iff_fetch.1 h
    exact Option.some_ne_none _ (hf.symm.trans hnone)
  · intro h
    rw [Option.eq_none_iff_forall_ne_some]
    exact fun ⟨i, n⟩ hf => h i.value n (codec_decode_ok_iff_fetch.2 ⟨i, hf, rfl⟩)

theorem step_of_exhausted {s : State} (hs : s.status = .exhausted) : step s = .next (stayExhausted s) := by
  simp only [step, hs]

theorem step_of_fetch {s : State} {i : Instr} {n : Nat} (hs : s.status = .hasNext) (hf : s.fetch = some (i, n)) :
    step s = .next (advanced i.value n s) := by
  simp only [step, hs, hf]
  exact exec_of_decodes (decodes_of_decode hf) s

theorem step_of_no_fetch {s : State} (hs : s.status = .hasNext) (hf : s.fetch = none) :
    step s = .next (endStream s) := by
  simp only [step, hs, hf]

/-- The address of the cursor is the sum modulo 2^64 (10_state.md R20, decision D2). -/
theorem ip_toNat (s : DecodeStream) : s.ip.toNat = (s.base.toNat + s.offset) % 2 ^ 64 := by
  simp [DecodeStream.ip]

/-- Settles O32: the three arms of a step, each by its equation; the address is that of the cursor before the advance. -/
theorem streamNextFollowsItsRule : Obligations.StreamNextFollowsItsRule := by
  intro s
  refine ⟨step_of_exhausted, ?success, fun hs h => step_of_no_fetch hs (fetch_eq_none_iff.2 h)⟩
  case success =>
    intro hs v n h
    obtain ⟨i, hf, rfl⟩ := codec_decode_ok_iff_fetch.1 h
    obtain ⟨hpos, hwithin⟩ := fetch_within hf
    refine ⟨⟨⟨i.value, s.ip⟩, step_of_fetch hs hf, rfl, fun haddress => ?_⟩, by omega⟩
    exact (ip_toNat _).trans (Nat.mod_eq_of_lt haddress)

/-- One transition into exhausted (R140): a step ends there from exhausted and where nothing is fetched, and nowhere else. -/
theorem step_exhausted_iff {s t : State} (h : step s = .next t) :
    t.status = .exhausted ↔ s.status = .exhausted ∨ s.fetch = none := by
  rcases step_cases s with ⟨hs, hstep⟩ | ⟨i, n, hs, hf, -, hstep⟩ | ⟨hs, hf, hstep⟩ <;>
    obtain rfl := Host.Outcome.next.inj (hstep.symm.trans h)
  · simp [hs]
  · simp [hs, hf]
  · simp [hf]

/-- None out of exhausted (R140): any number of steps, one or more, ends where the first one does. -/
theorem core_run_of_exhausted {s : State} (n : Nat) (hs : s.status = .exhausted) :
    core.run (n + 1) s = .next (stayExhausted s) := by
  induction n generalizing s with
  | zero => exact core_run_of_step 0 (step_of_exhausted hs)
  | succ n ih =>
    calc core.run (n + 2) s
      _ = core.run (n + 1) (stayExhausted s) := core_run_of_step (n + 1) (step_of_exhausted hs)
      _ = .next (stayExhausted (stayExhausted s)) := ih hs
      _ = .next (stayExhausted s) := rfl

/-- Settles O34: the case split of a step gives the transitions, an induction on the steps the permanence. -/
theorem exhaustedIsPermanent : Obligations.ExhaustedIsPermanent := by
  refine ⟨fun s t h => ?_, fun s n hs => core_run_of_exhausted n hs⟩
  rw [step_exhausted_iff h, fetch_eq_none_iff]

@[simp] theorem construct_remainder (base : Addr) (bytes : List Byte) (s : State) :
    (construct base bytes s).remainder = bytes := by
  simp [DecodeStream.remainder, Memory.slice]

@[simp] theorem construct_ip (base : Addr) (bytes : List Byte) (s : State) : (construct base bytes s).ip = base := by
  simp [DecodeStream.ip]

/-- A stream standing at the encodings of a list of well-formed instructions hands out exactly these, each at its address, and
ends after them: each call finds the encoding of the first and leaves the encodings of the rest; the last call finds no byte. -/
theorem collect_encoded {is : List Instr} (hwf : ∀ i ∈ is, i.wf = true) {fuel : Nat} (hfuel : is.length < fuel) {s : State}
    (hs : s.status = .hasNext) (hr : s.remainder = is.flatMap encode) :
    (collect fuel s).1 = placeFrom s.ip is ∧ (collect fuel s).2.offset = s.offset + (is.flatMap encode).length ∧
      (collect fuel s).2.status = .exhausted := by
  induction is generalizing fuel s with
  | nil =>
    obtain ⟨fuel, rfl⟩ := Nat.exists_eq_add_one.2 hfuel
    have hend : s.fetch = none := congrArg decode hr
    rw [collect_of_no_fetch fuel hs hend]
    exact ⟨rfl, rfl, rfl⟩
  | cons i is ih =>
    obtain ⟨fuel, rfl⟩ := Nat.exists_eq_add_one.2 (Nat.zero_lt_of_lt hfuel)
    obtain ⟨hi, his⟩ := List.forall_mem_cons.1 hwf
    have hfetch : s.fetch = some (i, (encode i).length) :=
      (congrArg decode hr).trans (decodes_encode hi _).decode
    have hrest : (advanced i.value (encode i).length s).remainder = is.flatMap encode := by
      rw [advanced_remainder, hr, List.flatMap_cons, List.drop_left]
    obtain ⟨hyields, hoffset, hstatus⟩ := ih his (Nat.lt_of_succ_lt_succ hfuel) (s := advanced i.value _ s) hs hrest
    rw [collect_of_fetch fuel hs hfetch]
    refine ⟨?_, ?_, hstatus⟩
    · rw [hyields, advanced_ip, placeFrom]
    · rw [hoffset, advanced_offset, List.flatMap_cons, List.length_append, Nat.add_assoc]

/-- The four instructions of the worked example of R147. -/
def exampleProgram : List Instr := [.pushRbase .rax, .callIndirect 0x69696969#32, .popRbase .rax, .ret]

/-- Settles O58: the nine bytes are the encodings of the four instructions, whose lengths 1, 6, 1 and 1 give the addresses. -/
theorem sourceStreamExample : Obligations.SourceStreamExample := by
  intro s
  have hwf : ∀ i ∈ exampleProgram, i.wf = true := by decide
  obtain ⟨hyields, hoffset, hstatus⟩ := collect_encoded hwf (fuel := 10) (by decide) (construct_status s _ _)
    (construct_remainder 0x1000#64 (exampleProgram.flatMap encode) s)
  rw [construct_ip] at hyields
  exact ⟨hyields, hoffset, hstatus⟩

/-- Where the address after the instruction plus the displacement is an address, the target is that sum
(45_stream_decoder.md R148). -/
theorem relativeTo_toNat (a : Addr) (n : Nat) (d : I32) (h0 : 0 ≤ (a.toNat : Int) + n + d.toInt)
    (h1 : (a.toNat : Int) + n + d.toInt < 2 ^ 64) :
    ((Codec.relativeTo a n d).toNat : Int) = a.toNat + n + d.toInt := by
  have hd : (sext64 d).toInt = d.toInt := BitVec.toInt_signExtend_of_le (by omega)
  have hsext : ((sext64 d).toNat : Int) = d.toInt % 2 ^ 64 := by
    have hlt := (sext64 d).isLt
    rw [← hd, BitVec.toInt_eq_toNat_cond]
    split <;> omega
  rw [Codec.relativeTo]
  push_cast [BitVec.toNat_add, BitVec.toNat_ofNat, hsext]
  omega

/-- Settles O25: the target is the general sum, which stays an address because a displacement is below 2^31; the instruction
that follows is the one of the worked stream. -/
theorem sourceResolveExample : Obligations.SourceResolveExample := by
  refine ⟨fun d h => ⟨rfl, _, rfl, ?sum⟩, rfl, ?follows⟩
  case sum =>
    have hd : d.toInt < 2 ^ 31 := BitVec.toInt_lt
    exact relativeTo_toNat 0x1001#64 6 d h (by simp; omega)
  case follows =>
    intro s
    obtain ⟨hyields, -, -⟩ := sourceStreamExample s
    exact ⟨_, _, _, _, hyields, rfl, rfl⟩

end Sys2Proof.Proofs
end

section
/-! encode: the round trip from values to bytes and back, the canonical bytes of each variant and the values it refuses
(spec/41_codec_operations.md R95, R96, R101, spec/30_encoding.md R62). -/

namespace Sys2Proof.Proofs

open Sys2Proof.Machine Sys2Proof.Laws

/-- Settles O20: the encoding of a well-formed instruction is the shape the decoder accepts for it. -/
theorem everyInstrDecodesFromItsEncoding : Obligations.EveryInstrDecodesFromItsEncoding :=
  fun _ t h => (decodes_encode h t).decode

/-- Settles O19: a well-formed value has an encoding, and an encoding decodes to its value whatever follows. -/
theorem encodeThenDecodeReturnsTheValue : Obligations.EncodeThenDecodeReturnsTheValue := by
  intro v hwf
  obtain ⟨b, hb, -⟩ := exists_codec_encode_of_wf hwf
  exact ⟨b, hb, codec_decode_of_encode hb⟩

/-- The values encode answers are the well-formed ones. -/
theorem wf_iff_exists_codec_encode (v : Instruction) : v.wf = true ↔ ∃ b, Codec.encode v = .ok b := by
  constructor
  · intro hwf
    obtain ⟨b, hb, -⟩ := exists_codec_encode_of_wf hwf
    exact ⟨b, hb⟩
  · rintro ⟨b, hb⟩
    obtain ⟨i, hi, -⟩ := codec_encode_ok.1 hb
    obtain ⟨rfl, hwf⟩ := value_canonical hi
    exact value_wf hwf

/-- Settles O12: a well-formed value is decoded from its encoding, and operands read from bytes are well-formed. -/
theorem decodedValuesAreTheWellFormedOnes : Obligations.DecodedValuesAreTheWellFormedOnes := by
  intro v
  constructor
  · intro hwf
    obtain ⟨b, hb, hdecode⟩ := encodeThenDecodeReturnsTheValue v hwf
    exact ⟨b ++ [], b.length, hdecode []⟩
  · rintro ⟨w, n, h⟩
    obtain ⟨i, hi, rfl⟩ := codec_decode_ok_iff.1 h
    exact value_wf (decodes_wf hi)

/-- The bytes of the canonical row are what encode emits for its value. -/
theorem codec_encode_value {i : Instr} (h : i.wf = true) : Codec.encode i.value = .ok (encode i) :=
  codec_encode_ok.2 ⟨i, canonical_value i h, rfl⟩

/-- Base bits are added to the opcode as the remainder of the code by 8 (30_encoding.md R55). -/
theorem opcodePlusReg_eq (opcode : Byte) (r : Register) :
    opcodePlusReg opcode r = opcode + BitVec.ofNat 8 ((code r).toNat % 8) := by
  rw [opcodePlusReg, ← baseBits_toNat, BitVec.ofNat_toNat]

/-- Without the extension bit the code is below 8 (40_register_model.md R84). -/
theorem not_isExtended_iff_code (r : Register) : (!isExtended r) = true ↔ (code r).toNat < 8 := by
  rw [Bool.not_eq_true', Bool.eq_false_iff, ne_eq, isExtended_iff_code, Nat.not_le]

/-- Settles O13: each clause of the table is the encoding of a row's instruction; the correspondence is the two round trips,
since two values with the same bytes are what these bytes decode to. -/
theorem encodeEmitsTheCanonicalBytes : Obligations.EncodeEmitsTheCanonicalBytes := by
  refine ⟨fun d => ⟨rfl, rfl, rfl, rfl, rfl⟩, ?immediate, rfl, rfl, ?extended, ?base, ?injective, ?decodes, ?reencodes⟩
  case immediate =>
    intro v hlo hhi
    exact codec_encode_value (i := .pushImm8 v) ((fitsImm8_iff v).2 ⟨hlo, hhi⟩)
  case extended =>
    intro r hr
    have hext : isExtended r = true := (isExtended_iff_code r).2 hr
    rw [← opcodePlusReg_eq, ← opcodePlusReg_eq]
    exact ⟨codec_encode_value (i := .pushRext r) hext, codec_encode_value (i := .popRext r) hext⟩
  case base =>
    intro r hr
    have hbase : (!isExtended r) = true := (not_isExtended_iff_code r).2 hr
    rw [← Nat.mod_eq_of_lt hr, ← opcodePlusReg_eq, ← opcodePlusReg_eq]
    exact ⟨codec_encode_value (i := .pushRbase r) hbase, codec_encode_value (i := .popRbase r) hbase⟩
  case injective =>
    intro u v b hu hv
    have hsame := (codec_decode_of_encode hu []).symm.trans (codec_decode_of_encode hv [])
    exact congrArg Prod.fst (Except.ok.inj hsame)
  case decodes =>
    intro v b hb
    simpa using codec_decode_of_encode hb []
  case reencodes =>
    intro w v n h
    exact (decodeThenEncodeReturnsTheBytes w v n h).1

/-- encode raises InvariantViolation only (60_exceptions.md R162). -/
theorem codec_encode_error {v : Instruction} {e : ErrorKind} (h : Codec.encode v = .error e) : e = .invariantViolation := by
  unfold Codec.encode at h
  split at h <;> cases h
  rfl

/-- encode of an ill-formed value is InvariantViolation (41_codec_operations.md R96). -/
theorem codec_encode_of_not_wf {v : Instruction} (h : v.wf = false) : Codec.encode v = .error .invariantViolation := by
  cases hv : Codec.encode v with
  | ok b => exact absurd ((wf_iff_exists_codec_encode v).2 ⟨b, hv⟩) (by simp [h])
  | error e => exact congrArg Except.error (codec_encode_error hv)

/-- The well-formed Mov and Lea name their register and hold a displacement (10_state.md R14). -/
theorem mov_lea_wf (a b : Operand) :
    ((Instruction.mov a b).wf = true → a = .reg .rax ∧ ∃ d, b = .int d) ∧
      ((Instruction.lea a b).wf = true → a = .reg .rcx ∧ ∃ d, b = .int d) := by
  cases a <;> cases b <;> simp [Instruction.wf]

/-- A register where the displacement belongs, or another first operand, is ill-formed. -/
theorem mov_lea_not_wf {a b : Operand} {r : Register} {v : Instruction}
    (hv : v.wf = true → a = .reg r ∧ ∃ d, b = .int d) (h : a ≠ .reg r ∨ ∃ q, b = .reg q) : v.wf = false := by
  rw [Bool.eq_false_iff]
  intro hwf
  obtain ⟨ha, d, rfl⟩ := hv hwf
  simp [ha] at h

/-- Settles O14: each shape is ill-formed, and the request stops at the InvariantViolation of an ill-formed value. -/
theorem encodeRefusesIllFormedValues : Obligations.EncodeRefusesIllFormedValues := by
  refine ⟨fun a b h => codec_encode_of_not_wf (mov_lea_not_wf (mov_lea_wf a b).1 h),
    fun a b h => codec_encode_of_not_wf (mov_lea_not_wf (mov_lea_wf a b).2 h),
    fun r => ⟨rfl, rfl, rfl⟩, fun v => rfl, ?immediate, wf_iff_exists_codec_encode, ?request⟩
  case immediate =>
    intro v hv
    refine codec_encode_of_not_wf (Bool.eq_false_iff.2 fun hwf => ?_)
    obtain ⟨hlo, hhi⟩ := (fitsImm8_iff v).1 hwf
    omega
  case request =>
    intro v s h
    simp only [perform, requestEncode, encodeInto, codec_encode_of_not_wf h]

/-- An answer consumes 1, 2, 5, 6 or 7 bytes (30_encoding.md R51). -/
theorem decodes_length_mem {w : List Byte} {i : Instr} {n : Nat} (h : Decodes w i n) : n ∈ ([1, 2, 5, 6, 7] : List Nat) := by
  cases h <;> decide

/-- The length computed from the value is that of its encoding (41_codec_operations.md R97). -/
theorem length_value {i : Instr} (h : i.wf = true) : Codec.length i.value = .ok (encode i).length :=
  (decodes_encode h []).length_value

/-- Settles O17: the lengths are those of the accepted shapes. -/
theorem encodingHasTheComputedLength : Obligations.EncodingHasTheComputedLength := by
  intro v hv
  obtain ⟨i, hi⟩ := exists_canonical_of_wf hv
  obtain ⟨rfl, hwf⟩ := value_canonical hi
  exact ⟨encode i, codec_encode_value hwf, length_value hwf, decodes_length_mem (decodes_encode hwf [])⟩

/-- length raises InvariantViolation only (41_codec_operations.md R98). -/
theorem codec_length_error {v : Instruction} {e : ErrorKind} (h : Codec.length v = .error e) : e = .invariantViolation := by
  unfold Codec.length at h
  split at h <;> cases h
  rfl

/-- Settles O21: what each of the three operations can raise. -/
theorem errorKindsStayApart : Obligations.ErrorKindsStayApart :=
  ⟨fun _ _ h => (codec_decode_error_iff.1 h).2, fun _ _ => codec_encode_error, fun _ _ => codec_length_error⟩

/-- Every value but Pop of an integer has a length (decision D9). -/
theorem exists_codec_length {v : Instruction} (h : ∀ d, v ≠ .pop (.int d)) : ∃ n, Codec.length v = .ok n := by
  cases v with
  | pop o =>
    cases o with
    | reg r => exact ⟨_, rfl⟩
    | int d => exact absurd rfl (h d)
  | push o => cases o <;> exact ⟨_, rfl⟩
  | _ => exact ⟨_, rfl⟩

/-- Settles O16: the one error of the length table is Pop of an integer; the request hands out every other answer. -/
theorem lengthRequestsAnswerOrFault : Obligations.LengthRequestsAnswerOrFault := by
  refine ⟨fun v s => ⟨rfl, rfl⟩, fun v s h => ?_⟩
  obtain ⟨n, hn⟩ := exists_codec_length h
  exact ⟨n, hn, by simp only [perform, requestLength, hn, answer]⟩

end Sys2Proof.Proofs
end

section
/-! One call of stream_next as a function of the stream alone: what it hands out and what it leaves of the stream. The step, the
request on any stream and the invariant of the machine go through it (spec/45_stream_decoder.md R142, spec/10_state.md R19,
R21). -/

namespace Sys2Proof.Proofs

open Sys2Proof.Machine Sys2Proof.Laws Sys2Proof.Safety

/-- What `stream_next` on this stream hands out. -/
def handedOut (d : DecodeStream) : Option PositionedInstruction :=
  match d.status, d.fetch with
  | .hasNext, some (i, _) => some ⟨i.value, d.ip⟩
  | _, _ => none

/-- What `stream_next` leaves of this stream. -/
def streamAfter (d : DecodeStream) : DecodeStream :=
  match d.status, d.fetch with
  | .hasNext, some (_, n) => { d with offset := d.offset + n }
  | .hasNext, none => { d with status := .exhausted }
  | .exhausted, _ => d

theorem streamAfter_of_exhausted {d : DecodeStream} (hs : d.status = .exhausted) :
    streamAfter d = d ∧ handedOut d = none := by
  simp [streamAfter, handedOut, hs]

theorem streamAfter_of_fetch {d : DecodeStream} {i : Instr} {n : Nat} (hs : d.status = .hasNext)
    (hf : d.fetch = some (i, n)) :
    streamAfter d = { d with offset := d.offset + n } ∧ handedOut d = some ⟨i.value, d.ip⟩ := by
  cases d
  cases hs
  simp [streamAfter, handedOut, hf]

theorem streamAfter_of_no_fetch {d : DecodeStream} (hs : d.status = .hasNext) (hf : d.fetch = none) :
    streamAfter d = { d with status := .exhausted } ∧ handedOut d = none := by
  simp [streamAfter, handedOut, hs, hf]

/-- The state after stream number `k`, which is `d`, has been advanced. -/
def afterNext (k : Nat) (d : DecodeStream) (s : State) : State :=
  match k with
  | 0 => { s with toDecodeStream := streamAfter d, result := some (.stream (handedOut d)) }
  | k + 1 => { s with others := s.others.set k (streamAfter d), result := some (.stream (handedOut d)) }

@[simp] theorem afterNext_sink (k : Nat) (d : DecodeStream) (s : State) : (afterNext k d s).sink = s.sink := by
  cases k <;> rfl

@[simp] theorem afterNext_freeCount (k : Nat) (d : DecodeStream) (s : State) :
    (afterNext k d s).freeCount = s.freeCount := by
  cases k <;> rfl

@[simp] theorem afterNext_result (k : Nat) (d : DecodeStream) (s : State) :
    (afterNext k d s).result = some (.stream (handedOut d)) := by
  cases k <;> rfl

/-- The stream advanced is the one the number names, and no other. -/
theorem afterNext_stream {k : Nat} {d : DecodeStream} {s : State} (h : s.stream k = some d) (j : Nat) :
    (afterNext k d s).stream j = if j = k then some (streamAfter d) else s.stream j := by
  cases k with
  | zero => cases j <;> rfl
  | succ k =>
    have hk : k < s.others.length := (List.getElem?_eq_some_iff.1 h).1
    cases j with
    | zero => rfl
    | succ j =>
      simp only [afterNext, State.stream, List.getElem?_set, Nat.add_right_cancel_iff, eq_comm (a := k), hk, if_true]

/-- A step advances stream 0. -/
theorem step_eq (s : State) : step s = .next (afterNext 0 s.toDecodeStream s) := by
  rcases step_cases s with ⟨hs, hstep⟩ | ⟨i, n, hs, hf, -, hstep⟩ | ⟨hs, hf, hstep⟩ <;> rw [hstep, afterNext]
  · obtain ⟨hafter, hout⟩ := streamAfter_of_exhausted hs
    rw [hafter, hout]
    rfl
  · obtain ⟨hafter, hout⟩ := streamAfter_of_fetch hs hf
    rw [hafter, hout]
    rfl
  · obtain ⟨hafter, hout⟩ := streamAfter_of_no_fetch hs hf
    rw [hafter, hout]
    rfl

/-- A stream_next on a stream that exists advances that stream. -/
theorem perform_streamNext {k : Nat} {d : DecodeStream} {s : State} (h : s.stream k = some d) :
    perform (.streamNext k) s = .next (afterNext k d s) := by
  cases k with
  | zero =>
    obtain rfl : s.toDecodeStream = d := Option.some.inj h
    exact step_eq s
  | succ k =>
    have hk : s.others[k]? = some d := h
    simp only [perform, requestStreamNext, hk, step_eq]
    rfl

/-- A stream_next on a stream that does not exist is refused (decision D17). -/
theorem perform_streamNext_refused {k : Nat} {s : State} (h : s.stream k = none) :
    perform (.streamNext k) s = .refused (.noSuchStream k) := by
  cases k with
  | zero => cases h
  | succ k =>
    have hk : s.others[k]? = none := h
    simp only [perform, requestStreamNext, hk]

/-- Everything a stream_next can complete with. -/
theorem streamNext_cases {k : Nat} {s t : State} (h : perform (.streamNext k) s = .next t) :
    ∃ d, s.stream k = some d ∧ t = afterNext k d s := by
  cases hk : s.stream k with
  | none => cases (perform_streamNext_refused hk).symm.trans h
  | some d => exact ⟨d, rfl, (Host.Outcome.next.inj ((perform_streamNext hk).symm.trans h)).symm⟩

/-- An advance keeps the base and the buffer (10_state.md R18). -/
theorem streamAfter_base_buf (d : DecodeStream) : (streamAfter d).base = d.base ∧ (streamAfter d).buf = d.buf := by
  unfold streamAfter
  split <;> exact ⟨rfl, rfl⟩

end Sys2Proof.Proofs
end

section
/-! Which operation writes what, and what every operation keeps: the invariant, the other streams, the sink
(spec/00_scope.md R7, spec/10_state.md R19, R21, R22). -/

namespace Sys2Proof.Proofs

open Sys2Proof.Machine Sys2Proof.Laws Sys2Proof.Safety

/-- A fetched instruction has a byte at least, and lies in its stream's buffer. -/
theorem fetch_bounds {d : DecodeStream} {i : Instr} {n : Nat} (h : d.fetch = some (i, n)) :
    1 ≤ n ∧ d.offset + n ≤ d.buf.size := by
  obtain ⟨hpos, -, hpresent⟩ := (decodes_of_decode h).bounds
  simp only [DecodeStream.remainder, Memory.slice, List.length_drop, length_bytes] at hpresent
  omega

/-- An advance keeps the invariant of its stream: the cursor passes bytes of the buffer only, and exhausted is entered only
where nothing is fetched. -/
theorem streamInv_streamAfter {d : DecodeStream} (h : StreamInv d) : StreamInv (streamAfter d) := by
  cases hs : d.status with
  | exhausted => rwa [(streamAfter_of_exhausted hs).1]
  | hasNext =>
    cases hf : d.fetch with
    | some p =>
      obtain ⟨i, n⟩ := p
      rw [(streamAfter_of_fetch hs hf).1]
      exact ⟨h.bufferCanonical, h.bufferBounded, (fetch_bounds hf).2, fun he => by simp [hs] at he⟩
    | none =>
      rw [(streamAfter_of_no_fetch hs hf).1]
      exact ⟨h.bufferCanonical, h.bufferBounded, h.offsetInBuffer, fun _ => hf⟩

/-- The invariant of the machine, by the numbers of its streams. -/
theorem inv_iff (s : State) : Inv s ↔ (∀ k d, s.stream k = some d → StreamInv d) ∧ s.sink.count ≤ 15 := by
  constructor
  · intro h
    refine ⟨fun k d hk => ?_, h.sinkWithinCapacity⟩
    cases k with
    | zero => exact Option.some.inj hk ▸ h.thisStream
    | succ k => exact h.otherStreams d (List.mem_of_getElem? hk)
  · rintro ⟨hstreams, hsink⟩
    refine ⟨hstreams 0 _ rfl, fun d hd => ?_, hsink⟩
    obtain ⟨k, hk⟩ := List.mem_iff_getElem?.1 hd
    exact hstreams (k + 1) d hk

/-- The invariant speaks of the streams and the sink's counter only. -/
theorem inv_of_stream_eq {s t : State} (h : Inv s) (hstream : ∀ k, t.stream k = s.stream k) (hsink : t.sink.count ≤ 15) :
    Inv t := by
  obtain ⟨hstreams, -⟩ := (inv_iff s).1 h
  exact (inv_iff t).2 ⟨fun k d hk => hstreams k d (hstream k ▸ hk), hsink⟩

/-- Advancing a stream keeps the invariant. -/
theorem inv_afterNext {k : Nat} {d : DecodeStream} {s : State} (h : Inv s) (hk : s.stream k = some d) :
    Inv (afterNext k d s) := by
  obtain ⟨hstreams, hsink⟩ := (inv_iff s).1 h
  refine (inv_iff _).2 ⟨fun j e hj => ?_, by simpa using hsink⟩
  rw [afterNext_stream hk] at hj
  split at hj
  · obtain rfl := Option.some.inj hj
    exact streamInv_streamAfter (hstreams k d hk)
  · exact hstreams j e hj

/-- Settles O46: a step is an advance of stream 0. -/
theorem stepKeepsTheStreamInvariant : Obligations.StepKeepsTheStreamInvariant := by
  intro s t hinv h
  obtain rfl := Host.Outcome.next.inj ((step_eq s).symm.trans h)
  exact inv_afterNext hinv rfl

/-- Settles O45: the reset stream stands at the start of the empty buffer with a next to try, and there is no other. -/
theorem resetMeetsTheStreamInvariant : Obligations.ResetMeetsTheStreamInvariant where
  thisStream := ⟨rfl, Nat.zero_le _, Nat.le_refl 0, nofun⟩
  otherStreams := nofun
  sinkWithinCapacity := Nat.zero_le 15

/-- A constructed stream stands at the start of a canonical buffer. -/
theorem streamInv_construct {bytes : List Byte} (h : bytes.length ≤ Config.maxBuf) (base : Addr) (s : State) :
    StreamInv (construct base bytes s).toDecodeStream where
  bufferCanonical := ofBytes_wf bytes
  bufferBounded := by simpa using h
  offsetInBuffer := Nat.zero_le _
  exhaustedUndecodable := by simp

/-- Construction keeps every stream there was, under the next number (log entry 5). -/
theorem construct_stream_succ (base : Addr) (bytes : List Byte) (s : State) (k : Nat) :
    (construct base bytes s).stream (k + 1) = s.stream k := by
  cases k <;> rfl

theorem inv_construct {bytes : List Byte} (hlen : bytes.length ≤ Config.maxBuf) {s : State} (h : Inv s) (base : Addr) :
    Inv (construct base bytes s) := by
  obtain ⟨hstreams, hsink⟩ := (inv_iff s).1 h
  refine (inv_iff _).2 ⟨fun k d hk => ?_, hsink⟩
  cases k with
  | zero => exact Option.some.inj hk ▸ streamInv_construct hlen base s
  | succ k => exact hstreams k d (construct_stream_succ base bytes s k ▸ hk)

/-- What a stream_new completes with (45_stream_decoder.md R141). -/
theorem streamNew_cases {base : Addr} {bytes : List Byte} {s t : State} (h : perform (.streamNew base bytes) s = .next t) :
    bytes.length ≤ Config.maxBuf ∧ t = construct base bytes s := by
  simp only [perform, requestStreamNew] at h
  split at h <;> cases h
  exact ⟨‹_›, rfl⟩

/-- Everything a request can complete with: an answer alone, the sink of an encode, a new stream, or an advance. -/
theorem perform_cases {q : Request} {s t : State} (h : perform q s = .next t) :
    (∃ r, t = { s with result := some r }) ∨
    (∃ v k, q = .encode v ∧ encodeInto (Sink.empty s.freeCount) v = .ok k ∧
      t = { s with sink := k, result := some (.encoded k.contents), freeCount := s.freeCount + 1 }) ∨
    (∃ base bytes, q = .streamNew base bytes ∧ bytes.length ≤ Config.maxBuf ∧ t = construct base bytes s) ∨
    (∃ k d, q = .streamNext k ∧ s.stream k = some d ∧ t = afterNext k d s) := by
  cases q with
  | regOfCode c =>
    simp only [perform, requestRegOfCode] at h
    split at h <;> cases h
    exact .inl ⟨_, rfl⟩
  | regFromBaseBits bits ext =>
    simp only [perform, requestRegFromBaseBits] at h
    split at h <;> cases h
    exact .inl ⟨_, rfl⟩
  | length v =>
    simp only [perform, requestLength] at h
    split at h <;> cases h
    exact .inl ⟨_, rfl⟩
  | encode v =>
    simp only [perform, requestEncode] at h
    split at h <;> cases h
    exact .inr (.inl ⟨v, _, rfl, ‹_›, rfl⟩)
  | streamNew base bytes =>
    exact .inr (.inr (.inl ⟨base, bytes, rfl, streamNew_cases h⟩))
  | streamNext k =>
    obtain ⟨d, hk, ht⟩ := streamNext_cases h
    exact .inr (.inr (.inr ⟨k, d, rfl, hk, ht⟩))
  | tryParse | isExtended | baseBits | fullBits | decode | resolve =>
    cases h
    exact .inl ⟨_, rfl⟩

/-- An encode leaves the sink's counter within the capacity (10_state.md R22). -/
theorem encodeInto_count_le {k k' : Sink} {v : Instruction} (hk : k.count ≤ 15) (h : encodeInto k v = .ok k') :
    k'.count ≤ 15 := by
  unfold encodeInto at h
  split at h
  · exact extend_count_le hk h
  · cases h

/-- Settles O47: an answer leaves streams and sink, an encode ends within the capacity, construction and advance keep the
invariant of each stream. -/
theorem requestsKeepTheStreamInvariant : Obligations.RequestsKeepTheStreamInvariant := by
  intro q s t hinv h
  obtain ⟨r, rfl⟩ | ⟨v, k, -, hk, rfl⟩ | ⟨base, bytes, -, hlen, rfl⟩ | ⟨k, d, -, hk, rfl⟩ := perform_cases h
  · exact inv_of_stream_eq hinv (fun k => by cases k <;> rfl) hinv.sinkWithinCapacity
  · exact inv_of_stream_eq hinv (fun k => by cases k <;> rfl) (encodeInto_count_le (Nat.zero_le 15) hk)
  · exact inv_construct hlen hinv base
  · exact inv_afterNext hinv hk

/-- Settles O48: of the four ways to complete, two write a stream and one writes the sink. -/
theorem onlyTheNamedOperationsWriteState : Obligations.OnlyTheNamedOperationsWriteState := by
  intro q s t h
  obtain ⟨r, rfl⟩ | ⟨v, k, rfl, -, rfl⟩ | ⟨base, bytes, rfl, -, rfl⟩ | ⟨k, d, rfl, -, rfl⟩ := perform_cases h
  · exact ⟨fun _ _ => ⟨rfl, rfl⟩, fun _ => ⟨rfl, rfl⟩⟩
  · exact ⟨fun _ _ => ⟨rfl, rfl⟩, fun hne => absurd rfl (hne v)⟩
  · exact ⟨fun hne => absurd rfl (hne base bytes), fun _ => ⟨rfl, rfl⟩⟩
  · exact ⟨fun _ hne => absurd rfl (hne k), fun _ => ⟨afterNext_sink k d s, afterNext_freeCount k d s⟩⟩

/-- Settles O42: an advance writes one stream's cursor and status and the result; construction adds a stream. -/
theorem streamsDoNotDisturbEachOther : Obligations.StreamsDoNotDisturbEachOther := by
  constructor
  · intro k s t h
    obtain ⟨d, hk, rfl⟩ := streamNext_cases h
    refine ⟨fun j hj => ?_, afterNext_sink k d s, afterNext_freeCount k d s, d, streamAfter d, hk, ?_,
      streamAfter_base_buf d⟩
    · rw [afterNext_stream hk, if_neg hj]
    · rw [afterNext_stream hk, if_pos rfl]
  · intro base bytes s t h k
    obtain ⟨-, rfl⟩ := streamNew_cases h
    exact construct_stream_succ base bytes s k

/-- Settles O43: each advance finds its stream as it was, whether the other went first or not, and what it hands out and
leaves is a function of that stream. -/
theorem advancesOfDifferentStreamsCommute : Obligations.AdvancesOfDifferentStreamsCommute := by
  intro j k s t u t' u' hjk hj hjk' hk hkj
  obtain ⟨a, ha, rfl⟩ := streamNext_cases hj
  obtain ⟨b, hb, rfl⟩ := streamNext_cases hk
  have hbt : (afterNext j a s).stream k = some b := by rw [afterNext_stream ha, if_neg hjk.symm, hb]
  have hat : (afterNext k b s).stream j = some a := by rw [afterNext_stream hb, if_neg hjk, ha]
  obtain rfl := Host.Outcome.next.inj ((perform_streamNext hbt).symm.trans hjk')
  obtain rfl := Host.Outcome.next.inj ((perform_streamNext hat).symm.trans hkj)
  refine ⟨fun m => ?_, by simp, by simp, by simp⟩
  rw [afterNext_stream hbt, afterNext_stream ha, afterNext_stream hat, afterNext_stream hb]
  by_cases hmj : m = j
  · simp [hmj, hjk]
  · simp [hmj]

end Sys2Proof.Proofs
end

section
/-! The step from the state and from the bytes: that it completes, which instruction it runs, what that hands out and where it
leaves the cursor (spec/45_stream_decoder.md R142, spec/42_rip_relative.md, spec/43_push_pop.md, spec/44_no_operand.md). -/

namespace Sys2Proof.Proofs

open Sys2Proof.Machine Sys2Proof.Laws

/-- Any number of steps completes, since each one does. -/
theorem core_run_completes (n : Nat) (s : State) : ∃ t, core.run n s = .next t := by
  induction n generalizing s with
  | zero => exact ⟨s, rfl⟩
  | succ n ih =>
    rw [core_run_of_step n (step_eq s)]
    exact ih _

/-- Settles O35: a step is an advance, and a request for one finds its stream or is refused. -/
theorem streamNextAlwaysCompletes : Obligations.StreamNextAlwaysCompletes := by
  refine ⟨fun s => ⟨_, step_eq s⟩, fun s n => core_run_completes n s, fun s k => ?_,
    fun s k => perform_streamNext_refused⟩
  rw [Option.isSome_iff_exists]
  constructor
  · rintro ⟨t, h⟩
    obtain ⟨d, hk, -⟩ := streamNext_cases h
    exact ⟨d, hk⟩
  · rintro ⟨d, hk⟩
    exact ⟨_, perform_streamNext hk⟩

/-- Settles O41: the result and the stream after a step are functions of the stream before it. -/
theorem streamSeesOnlyItsOwnFields : Obligations.StreamSeesOnlyItsOwnFields := by
  intro s t s' t' hbase hbuf hoffset hstatus hs ht
  have hsame : s.toDecodeStream = t.toDecodeStream :=
    calc s.toDecodeStream
      _ = ⟨s.base, s.buf, s.offset, s.status⟩ := rfl
      _ = ⟨t.base, t.buf, t.offset, t.status⟩ := by rw [hbase, hbuf, hoffset, hstatus]
  obtain rfl := Host.Outcome.next.inj ((step_eq s).symm.trans hs)
  obtain rfl := Host.Outcome.next.inj ((step_eq t).symm.trans ht)
  simp only [afterNext, hsame, and_self]

/-- What an instruction is handed out at is the address of the cursor. -/
theorem address_of_handedOut {d : DecodeStream} {p : PositionedInstruction} (h : handedOut d = some p) : p.address = d.ip := by
  unfold handedOut at h
  split at h <;> cases h
  rfl

/-- Settles O33: the address is that of the cursor, a sum modulo 2^64. -/
theorem handedOutAddressWraps : Obligations.HandedOutAddressWraps := by
  intro s t p h hp
  obtain rfl := Host.Outcome.next.inj ((step_eq s).symm.trans h)
  have hout : handedOut s.toDecodeStream = some p := by simpa using hp
  rw [address_of_handedOut hout, ip_toNat]

/-- Settles O31: a buffer of 2^64 bytes or more is longer than `MAX_BUF`. -/
theorem overlongBufferIsRefused : Obligations.OverlongBufferIsRefused := by
  intro base bytes s h
  have hmax : ¬bytes.length ≤ Config.maxBuf := by
    rw [Config.maxBuf]
    omega
  simp only [perform, requestStreamNew, if_neg hmax]

/-- Settles O44: the fields of the reset state. -/
theorem resetIsAFreshStream : Obligations.ResetIsAFreshStream := ⟨rfl, rfl, rfl, rfl, rfl⟩

/-! ### The meanings of the instructions -/

/-- An instruction whose value has length `n` is handed out and passed by `n` bytes. -/
theorem exec_of_length {i : Instr} {n : Nat} (h : Codec.length i.value = .ok n) (s : State) :
    exec i s = .next (advanced i.value n s) :=
  (exec_eq_deliver i s).trans (deliver_of_length h s)

/-- Settles O26: the five values have lengths 7, 7, 6, 6 and 5. -/
theorem ripRelativeInstructionsComplete : Obligations.RipRelativeInstructionsComplete := fun d s =>
  ⟨exec_of_length (i := .mov d) rfl s, exec_of_length (i := .lea d) rfl s, exec_of_length (i := .jmp d) rfl s,
    exec_of_length (i := .callIndirect d) rfl s, exec_of_length (i := .callDirect d) rfl s⟩

/-- Settles O28: Syscall has length 2 and Ret length 1. -/
theorem noOperandInstructionsComplete : Obligations.NoOperandInstructionsComplete := fun s =>
  ⟨exec_of_length (i := .syscall) rfl s, exec_of_length (i := .ret) rfl s⟩

/-- Settles O27: a register form has two bytes for an extended register and one for a base register. -/
theorem pushPopInstructionsComplete : Obligations.PushPopInstructionsComplete := by
  intro v r s
  refine ⟨exec_of_length (i := .pushImm8 v) rfl s, fun hr => ?extended, fun hr => ?base⟩
  case extended =>
    have hext : isExtended r = true := (isExtended_iff_code r).2 hr
    exact ⟨exec_of_length (i := .pushRext r) (length_value hext) s,
      exec_of_length (i := .popRext r) (length_value hext) s⟩
  case base =>
    have hbase : (!isExtended r) = true := (not_isExtended_iff_code r).2 hr
    exact ⟨exec_of_length (i := .pushRbase r) (length_value hbase) s,
      exec_of_length (i := .popRbase r) (length_value hbase) s⟩

/-- Settles O29: an instruction completes by handing out its value, which leaves all but cursor and result, and the length
passed is that of its encoding. -/
theorem instructionsChangeOnlyCursorAndResult : Obligations.InstructionsChangeOnlyCursorAndResult := by
  intro i s t h
  obtain ⟨n, hn⟩ : ∃ n, Codec.length i.value = .ok n := exists_codec_length (by cases i <;> nofun)
  obtain rfl := Host.Outcome.next.inj ((exec_of_length hn s).symm.trans h)
  refine ⟨rfl, rfl, fun _ => rfl, rfl, rfl, rfl, rfl, fun hwf => ?_⟩
  rw [advanced_offset, Except.ok.inj (hn.symm.trans (length_value hwf))]

/-! ### The instruction at the cursor -/

/-- Settles O36: the success arm of a step. -/
theorem stepRunsTheDecodedInstruction : Obligations.StepRunsTheDecodedInstruction := by
  intro s i n hs h
  have hfetch : s.fetch = some (i, n) := h
  simp only [step, hs, hfetch]

/-- Bytes of an accepted shape at the cursor are handed out and passed. -/
theorem step_of_bytes {s : State} {w : List Byte} {i : Instr} {n : Nat} (hs : s.status = .hasNext)
    (hbytes : s.buf.bytes.drop s.offset = w) (h : Decodes w i n) : step s = .next (advanced i.value n s) :=
  step_of_fetch hs ((congrArg decode hbytes).trans h.decode)

/-- Settles O37: the encoding decodes whatever follows it, and its length is what the step passes. -/
theorem stepRunsTheEncodedInstruction : Obligations.StepRunsTheEncodedInstruction := by
  intro s i rest hwf hs hbytes
  have hdecodes : Decodes (encode i ++ rest) i (encode i).length := decodes_encode hwf rest
  refine ⟨stepRunsTheDecodedInstruction s i _ hs (hbytes ▸ hdecodes.decode), _, step_of_bytes hs hbytes hdecodes, hs, ?_⟩
  rw [advanced_buf, advanced_offset, ← List.drop_drop, hbytes, List.drop_left]

/-- Bytes after an accepted shape do not matter (41_codec_operations.md R93). -/
theorem decodes_append {w : List Byte} {i : Instr} {n : Nat} (h : Decodes w i n) (t : List Byte) : Decodes (w ++ t) i n := by
  obtain ⟨-, -, hpresent⟩ := h.bounds
  exact decodes_of_take_eq h (List.take_append_of_le_length hpresent)

/-- Settles O38: the bytes placed at the cursor are those of the word, and the ones behind them do not matter. -/
theorem placedWordIsTheNextInstruction : Obligations.PlacedWordIsTheNextInstruction := by
  intro s nbits w i h
  obtain ⟨⟨i, n⟩, hword, rfl⟩ := Option.map_eq_some_iff.1 h
  have hbytes := slice_place s.buf s.offset (tableBytes nbits w)
  exact stepRunsTheDecodedInstruction _ i n rfl
    ((congrArg decode hbytes).trans (decodes_append (decodes_of_decode hword) _).decode)

/-- Settles O39: each front with its displacement is an accepted shape. -/
theorem ripRelativeBytesAreHandedOut : Obligations.RipRelativeBytesAreHandedOut := by
  intro s d0 d1 d2 d3 rest front v n hs hrow hbytes
  simp only [List.mem_cons, Prod.mk.injEq, List.not_mem_nil, or_false] at hrow
  obtain ⟨rfl, rfl, rfl⟩ | ⟨rfl, rfl, rfl⟩ | ⟨rfl, rfl, rfl⟩ | ⟨rfl, rfl, rfl⟩ | ⟨rfl, rfl, rfl⟩ := hrow
  · exact (step_of_bytes hs hbytes (Decodes.mov d0 d1 d2 d3 rest) :)
  · exact (step_of_bytes hs hbytes (Decodes.lea d0 d1 d2 d3 rest) :)
  · exact (step_of_bytes hs hbytes (Decodes.jmp d0 d1 d2 d3 rest) :)
  · exact (step_of_bytes hs hbytes (Decodes.callIndirect d0 d1 d2 d3 rest) :)
  · exact (step_of_bytes hs hbytes (Decodes.callDirect d0 d1 d2 d3 rest) :)

/-- The code of the register with these base bits and extension bit (40_register_model.md R82). -/
theorem code_regFromBaseBits (bits : BitVec 3) (ext : Bool) :
    (code (regFromBaseBits bits ext)).toNat = bits.toNat + if ext then 8 else 0 := by
  revert bits ext; decide

theorem register_eq_iff_code (q r : Register) : q = r ↔ (code q).toNat = (code r).toNat := by
  constructor
  · rintro rfl
    rfl
  · intro h
    rw [← regOfCode_code q, BitVec.eq_of_toNat_eq h, regOfCode_code]

theorem opcodePlusReg_regFromBaseBits (opcode : Byte) (k : BitVec 3) (ext : Bool) :
    opcodePlusReg opcode (regFromBaseBits k ext) = opcode + k.setWidth 8 := by
  rw [opcodePlusReg, baseBits_regFromBaseBits]

/-- Settles O40: the bytes at the cursor are the encoding of the instruction handed out, of the register `k` names in the
register rows. -/
theorem pushPopAndNoOperandBytesAreHandedOut : Obligations.PushPopAndNoOperandBytesAreHandedOut := by
  intro s rest hs
  refine ⟨fun ib h => (step_of_bytes hs h (Decodes.pushImm8 ib rest) :), fun k r hr => ?extended, fun k r hr => ?base,
    fun h => (step_of_bytes hs h (Decodes.syscall rest) :), fun h => (step_of_bytes hs h (Decodes.ret rest) :)⟩
  case extended =>
    obtain rfl : regFromBaseBits k true = r := by simp [register_eq_iff_code, code_regFromBaseBits, hr]
    have hext : isExtended (regFromBaseBits k true) = true := isExtended_regFromBaseBits k true
    rw [← opcodePlusReg_regFromBaseBits _ k true, ← opcodePlusReg_regFromBaseBits _ k true]
    exact ⟨fun h => (step_of_bytes hs h (decodes_encode (i := .pushRext _) hext rest) :),
      fun h => (step_of_bytes hs h (decodes_encode (i := .popRext _) hext rest) :)⟩
  case base =>
    obtain rfl : regFromBaseBits k false = r := by simp [register_eq_iff_code, code_regFromBaseBits, hr]
    have hbase : (!isExtended (regFromBaseBits k false)) = true := congrArg not (isExtended_regFromBaseBits k false)
    rw [← opcodePlusReg_regFromBaseBits _ k false, ← opcodePlusReg_regFromBaseBits _ k false]
    exact ⟨fun h => (step_of_bytes hs h (decodes_encode (i := .pushRbase _) hbase rest) :),
      fun h => (step_of_bytes hs h (decodes_encode (i := .popRbase _) hbase rest) :)⟩

end Sys2Proof.Proofs
end

section
/-! Whole streams. Every buffer is, in one way, the encodings of a list of instructions followed by bytes that match no pattern;
the stream yields this list and ends before these bytes (spec/45_stream_decoder.md section 1, spec/10_state.md R19 b). -/

namespace Sys2Proof.Proofs

open Sys2Proof.Machine Sys2Proof.Laws Sys2Proof.Safety

/-- `bytes` are the encodings of the well-formed instructions `is`, one after the other, and then `rest`, which matches no
pattern. -/
structure SplitsInto (bytes : List Byte) (is : List Instr) (rest : List Byte) : Prop where
  wf : ∀ i ∈ is, i.wf = true
  bytes_eq : bytes = is.flatMap encode ++ rest
  undecodable : decode rest = none

/-- Every byte sequence splits: what decodes at its front is an encoding, and fewer bytes are left. -/
theorem exists_splitsInto (bytes : List Byte) : ∃ is rest, SplitsInto bytes is rest := by
  induction hlen : bytes.length using Nat.strong_induction_on generalizing bytes with
  | _ m ih =>
    cases h : decode bytes with
    | none => exact ⟨[], bytes, by simp, rfl, h⟩
    | some p =>
      obtain ⟨i, n⟩ := p
      have hi : Decodes bytes i n := decodes_of_decode h
      obtain ⟨hpos, -, hpresent⟩ := hi.bounds
      obtain ⟨is, rest, hrest⟩ := ih (bytes.drop n).length (by simp; omega) (bytes.drop n) rfl
      refine ⟨i :: is, rest, List.forall_mem_cons.2 ⟨decodes_wf hi, hrest.wf⟩, ?_, hrest.undecodable⟩
      rw [List.flatMap_cons, List.append_assoc, ← hrest.bytes_eq, encode_of_decodes hi, List.take_append_drop]

/-- The instructions of a split are no more than its bytes, as every encoding has one. -/
theorem SplitsInto.length_le {bytes : List Byte} {is : List Instr} {rest : List Byte} (h : SplitsInto bytes is rest) :
    is.length ≤ bytes.length := by
  obtain ⟨hwf, rfl, -⟩ := h
  induction is with
  | nil => exact Nat.zero_le _
  | cons i is ih =>
    obtain ⟨hi, his⟩ := List.forall_mem_cons.1 hwf
    obtain ⟨hpos, -, -⟩ := (decodes_encode hi []).bounds
    have hle := ih his
    simp only [List.flatMap_cons, List.length_append, List.length_cons] at hle ⊢
    omega

/-- After some of its instructions, a split goes on with the others. -/
theorem SplitsInto.drop {bytes : List Byte} {is : List Instr} {rest : List Byte} (h : SplitsInto bytes is rest) (k : Nat) :
    SplitsInto (bytes.drop ((is.take k).flatMap encode).length) (is.drop k) rest where
  wf i hi := h.wf i (List.mem_of_mem_drop hi)
  bytes_eq := by
    have hparts : bytes = (is.take k).flatMap encode ++ ((is.drop k).flatMap encode ++ rest) := by
      rw [← List.append_assoc, ← List.flatMap_append, List.take_append_drop, h.bytes_eq]
    rw [hparts, List.drop_left]
  undecodable := h.undecodable

/-- `k` calls on a stream whose bytes split hand out the first `k` instructions and pass their encodings; a call after the last
instruction ends the stream. -/
theorem collect_splitsInto {is : List Instr} {rest : List Byte} (k : Nat) {s : State} (hs : s.status = .hasNext)
    (h : SplitsInto s.remainder is rest) :
    (collect k s).1 = placeFrom s.ip (is.take k) ∧
      (collect k s).2.offset = s.offset + ((is.take k).flatMap encode).length ∧
      (is.length < k → (collect k s).2.status = .exhausted) := by
  induction is generalizing k s with
  | nil =>
    have hfetch : s.fetch = none := (congrArg decode h.bytes_eq).trans h.undecodable
    cases k with
    | zero => exact ⟨rfl, rfl, nofun⟩
    | succ k =>
      rw [collect_of_no_fetch k hs hfetch]
      exact ⟨rfl, rfl, fun _ => rfl⟩
  | cons i is ih =>
    cases k with
    | zero => exact ⟨rfl, rfl, nofun⟩
    | succ k =>
      obtain ⟨hi, -⟩ := List.forall_mem_cons.1 h.wf
      have hfetch : s.fetch = some (i, (encode i).length) := by
        rw [DecodeStream.fetch, h.bytes_eq, List.flatMap_cons, List.append_assoc]
        exact (decodes_encode hi _).decode
      have hrest : SplitsInto (advanced i.value (encode i).length s).remainder is rest := by
        simpa using h.drop 1
      obtain ⟨hyields, hoffset, hstatus⟩ := ih k (s := advanced i.value _ s) hs hrest
      rw [collect_of_fetch k hs hfetch]
      refine ⟨?_, ?_, fun hk => hstatus (Nat.lt_of_succ_lt_succ hk)⟩
      · rw [hyields, advanced_ip, List.take_succ_cons, placeFrom]
      · rw [hoffset, advanced_offset, List.take_succ_cons, List.flatMap_cons, List.length_append, Nat.add_assoc]

/-- A stream yields the instructions of its buffer's split, each at its address, and ends before the undecodable rest. -/
theorem run_splitsInto {bytes : List Byte} {is : List Instr} {rest : List Byte} (h : SplitsInto bytes is rest) (base : Addr)
    (s : State) :
    (run base bytes s).1 = placeFrom base is ∧ (run base bytes s).2.offset = (is.flatMap encode).length ∧
      (run base bytes s).2.status = .exhausted := by
  have hlen : is.length < bytes.length + 1 := Nat.lt_succ_of_le h.length_le
  have hsplit : SplitsInto (construct base bytes s).remainder is rest := by rwa [construct_remainder]
  obtain ⟨hyields, hoffset, hstatus⟩ := collect_splitsInto (bytes.length + 1) (construct_status s base bytes) hsplit
  rw [List.take_of_length_le hlen.le] at hyields hoffset
  rw [construct_ip] at hyields
  rw [construct_offset, Nat.zero_add] at hoffset
  exact ⟨hyields, hoffset, hstatus hlen⟩

/-! ### Instructions placed one after the other -/

theorem length_placeFrom (a : Addr) (is : List Instr) : (placeFrom a is).length = is.length := by
  induction is generalizing a with
  | nil => rfl
  | cons i is ih => simp only [placeFrom, List.length_cons, ih]

/-- The later ones are placed from the address after the encodings of the earlier ones. -/
theorem placeFrom_append (a : Addr) (is js : List Instr) :
    placeFrom a (is ++ js) = placeFrom a is ++ placeFrom (a + BitVec.ofNat 64 (is.flatMap encode).length) js := by
  induction is generalizing a with
  | nil => simp [placeFrom]
  | cons i is ih => simp [placeFrom, ih, BitVec.ofNat_add, BitVec.add_assoc]

/-- Moving the first address moves every address. -/
theorem placeFrom_add (a shift : Addr) (is : List Instr) :
    placeFrom (a + shift) is = (placeFrom a is).map fun p => { p with address := p.address + shift } := by
  induction is generalizing a with
  | nil => rfl
  | cons i is ih =>
    have hswap (b : Addr) : a + shift + b = a + b + shift := by ac_rfl
    simp only [placeFrom, List.map_cons, hswap, ih]

/-- Each begins where the one before it ends. -/
theorem tiles_placeFrom {is : List Instr} (hwf : ∀ i ∈ is, i.wf = true) (a : Addr) : Tiles a (placeFrom a is) := by
  induction is generalizing a with
  | nil => trivial
  | cons i is ih =>
    obtain ⟨hi, his⟩ := List.forall_mem_cons.1 hwf
    exact ⟨rfl, _, length_value hi, ih his _⟩

/-- Their encodings, and the lengths of these, add up. -/
theorem reencode_placeFrom {is : List Instr} (hwf : ∀ i ∈ is, i.wf = true) (a : Addr) :
    reencode (placeFrom a is) = .ok (is.flatMap encode) ∧
      totalLength (placeFrom a is) = .ok (is.flatMap encode).length := by
  induction is generalizing a with
  | nil => exact ⟨rfl, rfl⟩
  | cons i _ ih =>
    obtain ⟨hi, his⟩ := List.forall_mem_cons.1 hwf
    obtain ⟨hbytes, htotal⟩ := ih his (a + BitVec.ofNat 64 (encode i).length)
    simp only [placeFrom, reencode, totalLength, codec_encode_value hi, length_value hi, hbytes, htotal, List.flatMap_cons,
      List.length_append, and_self]

/-! ### The statements about whole streams -/

/-- Settles O54: the encodings split into their instructions and no rest. -/
theorem streamOverEncodedProgramYieldsIt : Obligations.StreamOverEncodedProgramYieldsIt :=
  fun base _ s hwf => run_splitsInto ⟨hwf, (List.append_nil _).symm, rfl⟩ base s

/-- Settles O52: the yielded instructions are those of the split, whose encodings are the buffer up to its rest. -/
theorem reencodingAStreamGivesItsBuffer : Obligations.ReencodingAStreamGivesItsBuffer := by
  intro base bytes s
  obtain ⟨is, rest, h⟩ := exists_splitsInto bytes
  obtain ⟨hyields, hoffset, -⟩ := run_splitsInto h base s
  have htake : bytes.take (is.flatMap encode).length = is.flatMap encode := by rw [h.bytes_eq, List.take_left]
  rw [hyields, hoffset, htake]
  exact reencode_placeFrom h.wf base

/-- Settles O51: the yielded instructions are placed one after the other from the base. -/
theorem yieldedInstructionsTileTheBuffer : Obligations.YieldedInstructionsTileTheBuffer := by
  intro base bytes s
  obtain ⟨is, rest, h⟩ := exists_splitsInto bytes
  obtain ⟨hyields, -, -⟩ := run_splitsInto h base s
  exact hyields ▸ tiles_placeFrom h.wf base

/-- Settles O53: the split has at most one instruction for each byte, and what is left of the buffer is its undecodable rest. -/
theorem everyStreamEndsWithinItsBuffer : Obligations.EveryStreamEndsWithinItsBuffer := by
  intro base bytes s
  obtain ⟨is, rest, h⟩ := exists_splitsInto bytes
  obtain ⟨hyields, hoffset, hstatus⟩ := run_splitsInto h base s
  rw [hyields, hoffset, length_placeFrom]
  refine ⟨h.length_le, hstatus, ?_, ?_⟩
  · simp [h.bytes_eq]
  · rw [h.bytes_eq, List.drop_left, h.undecodable]

/-- Settles O55: the total length is the final offset, which is N exactly where no byte is left. -/
theorem lengthsAddUpToNExactlyAtTheBufferEnd : Obligations.LengthsAddUpToNExactlyAtTheBufferEnd := by
  intro base bytes s
  obtain ⟨-, htotal⟩ := reencodingAStreamGivesItsBuffer base bytes s
  obtain ⟨-, -, hoffset, -⟩ := everyStreamEndsWithinItsBuffer base bytes s
  rw [htotal, Except.ok.injEq, List.drop_eq_nil_iff]
  exact ⟨fun h => h.ge, fun h => le_antisymm hoffset h⟩

/-- Settles O56: the calls so far have yielded the first instructions of the split, and the later slice splits into the
others. -/
theorem laterSliceContinuesTheStream : Obligations.LaterSliceContinuesTheStream := by
  intro base bytes s t ps k hcollect
  obtain ⟨is, rest, h⟩ := exists_splitsInto bytes
  have hsplit : SplitsInto (construct base bytes s).remainder is rest := by rwa [construct_remainder]
  obtain ⟨hyields, hoffset, -⟩ := collect_splitsInto k (construct_status s base bytes) hsplit
  rw [hcollect] at hyields hoffset
  dsimp only at hyields hoffset
  rw [construct_ip] at hyields
  rw [construct_offset, Nat.zero_add] at hoffset
  obtain ⟨hwhole, -, -⟩ := run_splitsInto h base s
  obtain ⟨hlater, -, -⟩ := run_splitsInto (h.drop k) (base + BitVec.ofNat 64 t.offset) s
  rw [← hoffset] at hlater
  calc (run base bytes s).1
    _ = placeFrom base (is.take k ++ is.drop k) := by rw [hwhole, List.take_append_drop]
    _ = ps ++ placeFrom (base + BitVec.ofNat 64 t.offset) (is.drop k) := by rw [placeFrom_append, hyields, hoffset]
    _ = ps ++ (run (base + BitVec.ofNat 64 t.offset) (bytes.drop t.offset) s).1 := by rw [hlater]

/-- Settles O57: the split of a buffer does not know the base. -/
theorem baseOnlyShiftsTheAddresses : Obligations.BaseOnlyShiftsTheAddresses := by
  intro base shift bytes s
  obtain ⟨is, rest, h⟩ := exists_splitsInto bytes
  obtain ⟨hyields, hoffset, -⟩ := run_splitsInto h base s
  obtain ⟨hshifted, hoffset', -⟩ := run_splitsInto h (base + shift) s
  exact ⟨by rw [hyields, hshifted, placeFrom_add], hoffset'.trans hoffset.symm⟩

end Sys2Proof.Proofs
end

section
/-! The decode table's other two forms, the numbers in bytes, and the words of the test vectors
(spec/30_encoding.md section 3, R58, R63, spec/20_memory.md R32). -/

namespace Sys2Proof.Proofs

open Sys2Proof.Laws

/-! ### One row for each input -/

/-- The instruction a row reads is one of that row. -/
theorem row_read (w : List Byte) (r : Row) : (r.read w).row = r := by
  cases r <;> rfl

/-- Two rows that match an input read the input's one instruction, so they are its row. -/
theorem row_unique {q r : Row} {w : List Byte} (hq : q.matches w = true) (hr : r.matches w = true) : q = r := by
  obtain ⟨hread, -⟩ := decodes_unique (Decodes.of_matches q w hq) (Decodes.of_matches r w hr)
  rw [← row_read w q, hread, row_read]

/-- Settles O7: a search for the one row that matches does not depend on the order. -/
theorem rowsAreDisjointAndOrderFree : Obligations.RowsAreDisjointAndOrderFree :=
  ⟨fun _ _ _ => row_unique, fun _ _ hperm => List.find?_eq_find?_of_perm hperm fun _ hq _ hr => row_unique hq.2 hr.2⟩

/-! ### Mask and match -/

/-- A mask byte and a match byte that say exactly what a byte test says. -/
def MaskExact (t : ByteTest) (m x : Byte) : Prop := ∀ b, t.accepts b = true ↔ b &&& m = x

theorem maskExact_literal (c : Byte) : MaskExact (.literal c) 0xFF#8 c := by
  intro b
  have hmask : b &&& 0xFF#8 = b := BitVec.and_allOnes
  rw [accepts_literal, hmask]

theorem maskExact_payload : MaskExact .payload 0#8 0#8 := fun b => by simp

theorem maskExact_push : MaskExact (.range 0x50#8 0x57#8) 0xF8#8 0x50#8 := by
  unfold MaskExact; decide

theorem maskExact_pop : MaskExact (.range 0x58#8 0x5F#8) 0xF8#8 0x58#8 := by
  unfold MaskExact; decide

/-- Mask bytes and match bytes that are exact for a pattern, byte by byte. -/
inductive PatternExact : List ByteTest → List Byte → List Byte → Prop
  | nil : PatternExact [] [] []
  | cons {t : ByteTest} {m x : Byte} {ts : List ByteTest} {ms xs : List Byte} (h : MaskExact t m x)
      (hs : PatternExact ts ms xs) : PatternExact (t :: ts) (m :: ms) (x :: xs)

/-- The byte-wise test by exact masks is the pattern test. -/
theorem PatternExact.matchesPattern_iff {ts : List ByteTest} {ms xs : List Byte} (h : PatternExact ts ms xs) (w : List Byte) :
    matchesPattern ts w = true ↔ ts.length ≤ w.length ∧
      ∀ (k : Nat) (b m x : Byte), w[k]? = some b → ms[k]? = some m → xs[k]? = some x → b &&& m = x := by
  induction h generalizing w with
  | nil => simp [matchesPattern_nil]
  | @cons t m x ts ms xs h hs ih =>
    cases w with
    | nil => simp [matchesPattern]
    | cons b w =>
      rw [← Nat.and_forall_add_one, and_left_comm]
      simp [matchesPattern, h b, ih w]

theorem patternExact_disp32 : PatternExact disp32Tests [0#8, 0#8, 0#8, 0#8] [0#8, 0#8, 0#8, 0#8] :=
  .cons maskExact_payload (.cons maskExact_payload (.cons maskExact_payload (.cons maskExact_payload .nil)))

/-- The table's mask and match bytes are exact for every row (R63). -/
theorem row_patternExact (r : Row) : PatternExact r.pattern r.maskBytes r.matchBytes := by
  cases r with
  | mov | lea =>
    exact .cons (maskExact_literal _) (.cons (maskExact_literal _) (.cons (maskExact_literal _) patternExact_disp32))
  | jmp | callIndirect => exact .cons (maskExact_literal _) (.cons (maskExact_literal _) patternExact_disp32)
  | callDirect => exact .cons (maskExact_literal _) patternExact_disp32
  | pushImm8 => exact .cons (maskExact_literal _) (.cons maskExact_payload .nil)
  | syscall => exact .cons (maskExact_literal _) (.cons (maskExact_literal _) .nil)
  | pushRext => exact .cons (maskExact_literal _) (.cons maskExact_push .nil)
  | popRext => exact .cons (maskExact_literal _) (.cons maskExact_pop .nil)
  | ret => exact .cons (maskExact_literal _) .nil
  | pushRbase => exact .cons maskExact_push .nil
  | popRbase => exact .cons maskExact_pop .nil

/-- Settles O8: the lengths row by row, and the test by exact masks. -/
theorem maskAndMatchIsExact : Obligations.MaskAndMatchIsExact :=
  fun r => ⟨by cases r <;> rfl, (row_patternExact r).matchesPattern_iff⟩

/-! ### The map from the first byte -/

/-- A Push or Pop byte is none of the three bytes the map tries before it. -/
theorem ne_earlier_of_register {rb : Byte} (hlo : 0x50#8 ≤ rb) (hhi : rb ≤ 0x5F#8) :
    rb ≠ 0x0F#8 ∧ rb ≠ 0x41#8 ∧ rb ≠ 0x48#8 := by
  revert rb; decide

/-- The Push bytes and the Pop bytes are the sixteen from 0x50 on. -/
theorem push_pop_byte (rb : Byte) :
    (0x50#8 ≤ rb ∧ rb ≤ 0x57#8 → rb ≤ 0x5F#8) ∧ (0x58#8 ≤ rb ∧ rb ≤ 0x5F#8 → 0x50#8 ≤ rb ∧ ¬rb ≤ 0x57#8) ∧
      (¬rb ≤ 0x57#8 → 0x58#8 ≤ rb) := by
  revert rb; decide

/-- The map accepts the shapes the decoder accepts. -/
theorem decodeByFirstByte_of_decodes {w : List Byte} {i : Instr} {n : Nat} (h : Decodes w i n) :
    decodeByFirstByte w = some (i, n) := by
  cases h with
  | pushRext rb t h => simp [decodeByFirstByte, after41, h]
  | popRext rb t h =>
    obtain ⟨-, hpop, -⟩ := push_pop_byte rb
    simp [decodeByFirstByte, after41, h, hpop h]
  | pushRbase rb t h =>
    obtain ⟨hpush, -, -⟩ := push_pop_byte rb
    simp [decodeByFirstByte, ne_earlier_of_register h.1 (hpush h), h]
  | popRbase rb t h =>
    obtain ⟨-, hpop, -⟩ := push_pop_byte rb
    simp [decodeByFirstByte, ne_earlier_of_register (hpop h).1 h.2, h, hpop h]
  | _ => rfl

/-! What the map looks at after each first byte spells an accepted shape. -/

section
variable {t : List Byte} {i : Instr} {n : Nat}

theorem decodes_of_after0F (h : after0F t = some (i, n)) : Decodes (0x0F#8 :: t) i n := by
  unfold after0F at h
  split at h
  · split_ifs at h with h1
    cases h
    exact h1 ▸ .syscall _
  · cases h

theorem decodes_of_after41 (h : after41 t = some (i, n)) : Decodes (0x41#8 :: t) i n := by
  unfold after41 at h
  split at h
  · split_ifs at h with hpush hpop <;> cases h
    · exact .pushRext _ _ hpush
    · exact .popRext _ _ hpop
  · cases h

theorem decodes_of_after48 (h : after48 t = some (i, n)) : Decodes (0x48#8 :: t) i n := by
  unfold after48 at h
  split at h
  · split_ifs at h with hmov hlea <;> cases h
    · obtain ⟨rfl, rfl⟩ := hmov
      exact .mov _ _ _ _ _
    · obtain ⟨rfl, rfl⟩ := hlea
      exact .lea _ _ _ _ _
  · cases h

theorem decodes_of_after6A (h : after6A t = some (i, n)) : Decodes (0x6A#8 :: t) i n := by
  unfold after6A at h
  split at h <;> cases h
  exact .pushImm8 _ _

theorem decodes_of_afterE8 (h : afterE8 t = some (i, n)) : Decodes (0xE8#8 :: t) i n := by
  unfold afterE8 at h
  split at h <;> cases h
  exact .callDirect _ _ _ _ _

theorem decodes_of_afterFF (h : afterFF t = some (i, n)) : Decodes (0xFF#8 :: t) i n := by
  unfold afterFF at h
  split at h
  · split_ifs at h with hjmp hcall <;> cases h
    · exact hjmp ▸ .jmp _ _ _ _ _
    · exact hcall ▸ .callIndirect _ _ _ _ _
  · cases h

end

/-- The map accepts no other shape. -/
theorem decodes_of_decodeByFirstByte {w : List Byte} {i : Instr} {n : Nat} (h : decodeByFirstByte w = some (i, n)) :
    Decodes w i n := by
  cases w with
  | nil => cases h
  | cons b t =>
    simp only [decodeByFirstByte] at h
    split_ifs at h with h1 h2 h3 hpush hpop h4 h5 h6 h7
    · exact h1 ▸ decodes_of_after0F h
    · exact h2 ▸ decodes_of_after41 h
    · exact h3 ▸ decodes_of_after48 h
    · cases h
      exact .pushRbase b t hpush
    · cases h
      exact .popRbase b t hpop
    · exact h4 ▸ decodes_of_after6A h
    · cases h
      exact h5 ▸ .ret t
    · exact h6 ▸ decodes_of_afterE8 h
    · exact h7 ▸ decodes_of_afterFF h

/-- The first bytes of the accepted shapes are the 23 listed ones (30_encoding.md section 3). -/
theorem exists_decodes_cons_iff (b : Byte) : (∃ t i n, Decodes (b :: t) i n) ↔
    b ∈ ([0x0F#8, 0x41#8, 0x48#8, 0x6A#8, 0xC3#8, 0xE8#8, 0xFF#8] : List Byte) ∨ (0x50#8 ≤ b ∧ b ≤ 0x5F#8) := by
  constructor
  · rintro ⟨t, i, n, h⟩
    obtain ⟨hpush, hpop, -⟩ := push_pop_byte b
    cases h with
    | pushRbase _ _ h => exact .inr ⟨h.1, hpush h⟩
    | popRbase _ _ h => exact .inr ⟨(hpop h).1, h.2⟩
    | _ => exact .inl (by decide)
  · rintro (hmem | ⟨hlo, hhi⟩)
    · simp only [List.mem_cons, List.not_mem_nil, or_false] at hmem
      obtain rfl | rfl | rfl | rfl | rfl | rfl | rfl := hmem
      · exact ⟨_, _, _, .syscall []⟩
      · exact ⟨_, _, _, .pushRext 0x50#8 [] (by decide)⟩
      · exact ⟨_, _, _, .mov 0#8 0#8 0#8 0#8 []⟩
      · exact ⟨_, _, _, .pushImm8 0#8 []⟩
      · exact ⟨_, _, _, .ret []⟩
      · exact ⟨_, _, _, .callDirect 0#8 0#8 0#8 0#8 []⟩
      · exact ⟨_, _, _, .jmp 0#8 0#8 0#8 0#8 []⟩
    · by_cases h : b ≤ 0x57#8
      · exact ⟨_, _, _, .pushRbase b [] ⟨hlo, h⟩⟩
      · obtain ⟨-, -, hpop⟩ := push_pop_byte b
        exact ⟨_, _, _, .popRbase b [] ⟨hpop h, hhi⟩⟩

/-- Settles O9: map and decoder answer the same shapes, and these begin with the 23 bytes. -/
theorem firstByteMapIsTheDecoder : Obligations.FirstByteMapIsTheDecoder := by
  constructor
  · intro w
    apply Option.ext
    rintro ⟨i, n⟩
    exact ⟨fun h => (decodes_of_decodeByFirstByte h).decode, fun h => decodeByFirstByte_of_decodes (decodes_of_decode h)⟩
  · intro b
    rw [← exists_decodes_cons_iff]
    simp only [Option.isSome_iff_exists, Prod.exists, decode_eq_some_iff]

/-! ### Numbers in bytes and written-out words -/

/-- Settles O5: the bit patterns are the base-256 sums, read as signed numbers. -/
theorem fieldBytesReadAsSignedNumbers : Obligations.FieldBytesReadAsSignedNumbers := by
  refine ⟨fun d0 d1 d2 d3 => ?displacement, fun v => ?emitted, fun b => ?immediate⟩
  case displacement =>
    have h0 := d0.isLt; have h1 := d1.isLt; have h2 := d2.isLt; have h3 := d3.isLt
    rw [BitVec.toInt_eq_toNat_cond, le32s_toNat]
    split <;> split <;> omega
  case emitted =>
    have hv := v.isLt
    simp only [le32, List.map_cons, List.map_nil, lo8_toNat, lo8_sshiftRight_toNat v 8 (by omega),
      lo8_sshiftRight_toNat v 16 (by omega), lo8_sshiftRight_toNat v 24 (by omega), List.cons.injEq, and_true, true_and]
    omega
  case immediate =>
    rw [sext8to32_toInt]
    split <;> split <;> omega

/-- Settles O59: six words are of accepted shapes; the last matches no row. -/
theorem writtenOutWordsDecode : Obligations.WrittenOutWordsDecode :=
  ⟨(Decodes.mov _ _ _ _ []).decode, (Decodes.jmp _ _ _ _ []).decode, (Decodes.pushImm8 _ []).decode,
    (Decodes.popRext _ [] (by decide)).decode, (Decodes.pushRbase _ [] (by decide)).decode, (Decodes.syscall []).decode, rfl⟩

end Sys2Proof.Proofs
end

section
/-! The register requests, the targets of relative addresses and the capacity of the sink (spec/40_register_model.md,
spec/45_stream_decoder.md R148, R149, spec/10_state.md R22). -/

namespace Sys2Proof.Proofs

open Sys2Proof.Machine Sys2Proof.Laws

/-! ### Registers -/

/-- The register field is the remainder of the byte by 8 (40_register_model.md R83). -/
theorem registerField_eq (byte : Byte) : registerField byte = BitVec.ofNat 3 (byte.toNat % 8) := by
  revert byte; decide

/-- Settles O3: names and bits determine each other, and codes with the same remainder by 8 differ by 8. -/
theorem registerModelLaws : Obligations.RegisterModelLaws := by
  refine ⟨fun r => ⟨regFromBaseBits_baseBits r, ?_⟩,
    fun bits ext => ⟨baseBits_regFromBaseBits bits ext, isExtended_regFromBaseBits bits ext⟩, fun c => ?_, fun r q h => ?_,
    fun r q => ?siblings, fun byte ext => by rw [tryParse, registerField_eq]⟩
  · rw [fullBits_eq_code, regOfCode_code]
  · rw [fullBits_eq_code, code_regOfCode]
  · rw [fullBits_eq_code, fullBits_eq_code] at h
    exact (register_eq_iff_code r q).2 (congrArg BitVec.toNat h)
  case siblings =>
    have hr := (code r).isLt
    have hq := (code q).isLt
    rw [baseBits_eq_iff, ne_eq, register_eq_iff_code]
    omega

/-- A register request in its domain answers the register of its code. -/
theorem regFromBaseBits_eq_regOfCode (bits : BitVec 3) (ext : Bool) :
    regFromBaseBits bits ext = regOfCode (BitVec.ofNat 4 (bits.toNat + if ext then 8 else 0)) := by
  rw [register_eq_iff_code, code_regOfCode, code_regFromBaseBits, BitVec.toNat_ofNat, Nat.mod_eq_of_lt]
  split <;> omega

/-- Settles O4: the requests answer by code and refuse the numbers that are no code or no base bits. -/
theorem registerRequestsAnswerOrRefuse : Obligations.RegisterRequestsAnswerOrRefuse := by
  intro s
  refine ⟨fun bits ext h => ?bits, fun bits ext h => ?bitsRefused, fun c h => ?code, fun c h => ?codeRefused,
    fun byte ext => ⟨_, rfl, ?parsed⟩, fun r => ?register⟩
  case bits =>
    simp only [perform, requestRegFromBaseBits, if_pos h, answer, regFromBaseBits_eq_regOfCode, BitVec.toNat_ofNat,
      Nat.mod_eq_of_lt h]
  case bitsRefused => simp only [perform, requestRegFromBaseBits, if_neg (Nat.not_lt.2 h)]
  case code =>
    refine ⟨regOfCode (BitVec.ofNat 4 c), by simp only [perform, requestRegOfCode, if_pos h, answer], ?_⟩
    rw [code_regOfCode, BitVec.toNat_ofNat, Nat.mod_eq_of_lt h]
  case codeRefused => simp only [perform, requestRegOfCode, if_neg (Nat.not_lt.2 h)]
  case parsed =>
    rw [code_regFromBaseBits, registerField_eq, BitVec.toNat_ofNat, Nat.mod_mod_of_dvd _ (dvd_refl 8)]
  case register =>
    refine ⟨rfl, ?_, ?_⟩
    · rw [← baseBits_toNat]
      rfl
    · rw [← fullBits_eq_code]
      rfl

/-! ### Targets -/

/-- The target is the sum modulo 2^64 (decision D2). -/
theorem relativeTo_toNat_emod (a : Addr) (n : Nat) (d : I32) :
    ((Codec.relativeTo a n d).toNat : Int) = ((a.toNat : Int) + n + d.toInt) % 2 ^ 64 := by
  have hd : (sext64 d).toInt = d.toInt := BitVec.toInt_signExtend_of_le (by omega)
  have hsext : ((sext64 d).toNat : Int) = d.toInt % 2 ^ 64 := by
    have hlt := (sext64 d).isLt
    rw [← hd, BitVec.toInt_eq_toNat_cond]
    split <;> omega
  rw [Codec.relativeTo]
  push_cast [BitVec.toNat_add, BitVec.toNat_ofNat, hsext]
  omega

/-- A form that carries a displacement has the length in the list, and its target is relative to the following instruction,
whatever its first operand (R97, R148). -/
theorem length_and_resolve_of_displacement (a : Addr) (d : I32) (x y : Operand) {v : Instruction} {n : Nat}
    (h : (v, n) ∈ [(Instruction.mov x (.int d), 7), (Instruction.lea y (.int d), 7), (Instruction.jmp (.int d), 6),
      (Instruction.callIndirect (.int d), 6), (Instruction.callDirect (.int d), 5)]) :
    Codec.length v = .ok n ∧
      Codec.resolve { instruction := v, address := a } = .address (Codec.relativeTo a n d) := by
  simp only [List.mem_cons, Prod.mk.injEq, List.not_mem_nil, or_false] at h
  obtain ⟨rfl, rfl⟩ | ⟨rfl, rfl⟩ | ⟨rfl, rfl⟩ | ⟨rfl, rfl⟩ | ⟨rfl, rfl⟩ := h <;> exact ⟨rfl, rfl⟩

/-- Settles O22: in the range of addresses the target is the sum itself. -/
theorem resolveAddsToTheFollowingAddress : Obligations.ResolveAddsToTheFollowingAddress := by
  intro a d v n hv
  obtain ⟨hlength, htarget⟩ := length_and_resolve_of_displacement a d (.reg .rax) (.reg .rcx) hv
  exact ⟨hlength, fun h0 h1 => ⟨_, htarget, relativeTo_toNat a n d h0 h1⟩⟩

/-- Settles O24: outside that range it wraps, and a register in the displacement's place gives none. -/
theorem resolveWrapsAndLooksOnlyAtTheDisplacement : Obligations.ResolveWrapsAndLooksOnlyAtTheDisplacement := by
  refine ⟨fun a d o v n hv => ?displacement, fun a o r v hv => ?register, fun a x o => by cases o <;> rfl⟩
  case displacement =>
    obtain ⟨-, htarget⟩ := length_and_resolve_of_displacement a d o o hv
    exact ⟨_, htarget, relativeTo_toNat_emod a n d⟩
  case register =>
    simp only [List.mem_cons, List.not_mem_nil, or_false] at hv
    obtain rfl | rfl | rfl | rfl | rfl := hv <;> rfl

/-- Settles O23: the forms without a displacement resolve to NotApplicable, which the request hands out. -/
theorem resolveIsNotApplicableWithoutDisplacement : Obligations.ResolveIsNotApplicableWithoutDisplacement := by
  intro a o s v hv
  simp only [List.mem_cons, List.not_mem_nil, or_false] at hv
  obtain rfl | rfl | rfl | rfl := hv <;> exact ⟨rfl, rfl⟩

/-! ### The sink -/

/-- Bytes that fit are appended to what the sink holds. -/
theorem encodeInto_spec {v : Instruction} {b : List Byte} (h : Codec.encode v = .ok b) {k : Sink}
    (hfits : k.count + b.length ≤ 15) :
    ∃ k', encodeInto k v = .ok k' ∧ k'.contents = k.contents ++ b ∧ k'.count = k.count + b.length := by
  simpa only [encodeInto, h] using extend_spec b k hfits

/-- What an encode that completes leaves is determined by the bytes. -/
theorem encodeInto_count {v : Instruction} {b : List Byte} (h : Codec.encode v = .ok b) {k k' : Sink}
    (hfits : k.count + b.length ≤ 15) (hk : encodeInto k v = .ok k') : k'.count = k.count + b.length := by
  obtain ⟨k'', hk'', -, hcount⟩ := encodeInto_spec h hfits
  obtain rfl := Except.ok.inj (hk.symm.trans hk'')
  exact hcount

/-- Settles O50: encodings have at most seven bytes, so two fit in fifteen; three Movs have twenty-one. -/
theorem sinkHoldsTwoEncodingsButMaybeNotThree : Obligations.SinkHoldsTwoEncodingsButMaybeNotThree := by
  refine ⟨fun k b h => ?push, fun k b h => dif_neg (Nat.not_lt.2 h), fun epoch v u hv hu => ?two,
    .mov (.reg .rax) (.int 0#32), rfl, fun epoch k k' hk hk' => ?three⟩
  case push =>
    obtain ⟨k', hk', hcontents, hcount⟩ := push_spec k b h
    exact ⟨k', hk', hcount, hcontents⟩
  case two =>
    obtain ⟨b, hb, hlen⟩ := exists_codec_encode_of_wf hv
    obtain ⟨c, hc, hlen'⟩ := exists_codec_encode_of_wf hu
    obtain ⟨k, hk, hcontents, hcount⟩ := encodeInto_empty hb (by omega) epoch
    obtain ⟨k', hk', hcontents', -⟩ := encodeInto_spec hc (k := k) (by omega)
    exact ⟨k, k', b, c, hk, hk', hb, hc, by rw [hcontents', hcontents]⟩
  case three =>
    have hmov : Codec.encode (.mov (.reg .rax) (.int 0#32)) = .ok (encode (.mov 0#32)) := rfl
    have hlen : (encode (.mov 0#32)).length = 7 := rfl
    have hone : k.count = 0 + 7 := encodeInto_count hmov (by simp [hlen]) hk
    have htwo : k'.count = k.count + 7 := encodeInto_count hmov (by omega) hk'
    simp only [encodeInto, hmov]
    exact extend_overflow _ k' (by omega) (by omega)

end Sys2Proof.Proofs
end
